-- ==== Sys2Proof/Word.lean ====
section
/-! DEFINITION. The units of data of the display_controller: bytes, 32-bit words, 24-bit register
fields (rules R7, R10, R30) and colours (rule R17). -/

namespace Sys2Proof

/-- A byte (R7): 8 bits, bit 0 the least significant. -/
abbrev Byte := BitVec 8

/-- A word of the shared memory (R30): 32 bits. -/
abbrev Word := BitVec 32

/-- A 24-bit unsigned register field (R10, R52). -/
abbrev Reg24 := BitVec 24

/-- `RGBA(r, g, b, a)` (R17): four components in `0..255`; the normalised component is the exact
rational `component / 255`. -/
structure Color where
  r : Byte
  g : Byte
  b : Byte
  a : Byte
deriving DecidableEq, Repr, Inhabited

end Sys2Proof
end

