-- ==== Sys2Proof/Syntax.lean ====
section
/-! DEFINITION. The operations of the display_controller, one constructor per row of
spec/opcode_table.json (R5, R51, R62): the thirteen F-MODE rows a mode byte selects, the operations no
encoding selects, and the host's operations at the boundary. -/

namespace Sys2Proof

/-- The seven 24-bit control registers of one invocation (R10). -/
structure RegisterBlock where
  screen : Reg24
  palette : Reg24
  font : Reg24
  height : Reg24
  width : Reg24
  rowOffset : Reg24
  colOffset : Reg24
deriving DecidableEq, Repr

/-- The resolution axis of R51 and R109: mode bit 1. -/
inductive Resolution where
  | low
  | high
deriving DecidableEq, Repr

/-- The colour-model axis of R51 and R95: mode bit 2. -/
inductive ColorModel where
  | direct
  | paletted
deriving DecidableEq, Repr

/-- The instructions. The operands `px`, `py`, `regs` of the routines a mode byte selects are not in
the byte: they are the coordinate of the current invocation (R13) and the RegisterBlock parsed from
the shared memory (R11), so those constructors carry only the bits their row leaves open. -/
inductive Instr where
  /-- text, low resolution, direct colour (R118): mode byte `00000000` -/
  | mode0
  /-- graphics, low resolution, direct colour (R128): mode byte `00000001` -/
  | mode1
  /-- text, high resolution, direct colour (R119): mode byte `00000010` -/
  | mode2
  /-- graphics, high resolution, direct colour (R129): mode byte `00000011` -/
  | mode3
  /-- text, low resolution, paletted colour (R120): mode byte `00000100` -/
  | mode4
  /-- graphics, low resolution, paletted colour (R130): mode byte `00000101` -/
  | mode5
  /-- text, high resolution, paletted colour (R121): mode byte `00000110` -/
  | mode6
  /-- graphics, high resolution, paletted colour (R131): mode byte `00000111` -/
  | mode7
  /-- FALLBACK (R105), row `1xxxxxxx`: mode bytes 128..255 -/
  | fallback128 (x : BitVec 7)
  /-- FALLBACK (R105), row `01xxxxxx`: mode bytes 64..127 -/
  | fallback64 (x : BitVec 6)
  /-- FALLBACK (R105), row `001xxxxx`: mode bytes 32..63 -/
  | fallback32 (x : BitVec 5)
  /-- FALLBACK (R105), row `0001xxxx`: mode bytes 16..31 -/
  | fallback16 (x : BitVec 4)
  /-- FALLBACK (R105), row `00001xxx`: mode bytes 8..15 -/
  | fallback8 (x : BitVec 3)
  /-- read one byte (R70) -/
  | peek8 (addr : Nat)
  /-- read three consecutive bytes (R71) -/
  | peek24 (addr : Nat)
  /-- parse the mode byte and the seven registers (R80) -/
  | readDisplayRegisters
  /-- translate a cell coordinate to a byte address (R85) -/
  | toByteAddress (x y : Nat) (regs : RegisterBlock)
  /-- decode a direct colour byte (R90) -/
  | toColor (b : Byte)
  /-- decode a packed 24-bit colour (R93) -/
  | to24Color (w : Word)
  /-- indirect through the palette (R94) -/
  | paletteLookup (index : Nat) (regs : RegisterBlock)
  /-- test one pixel of a glyph row; the column is a 3-bit number (R100, R101) -/
  | textPixelSet (g : Byte) (col : BitVec 3)
  /-- the whole computation of one invocation (R103) -/
  | pixel (px py : Nat)
  /-- the nine-way selection (R104) -/
  | dispatch (mode : Byte) (px py : Nat) (regs : RegisterBlock)
  /-- the colour-model half of a routine (R106) -/
  | cellColor (b : Byte) (model : ColorModel) (regs : RegisterBlock)
  /-- the common text routine (R117) -/
  | textMode (px py : Nat) (regs : RegisterBlock) (res : Resolution) (model : ColorModel)
  /-- one whole batch as a function of the snapshot (R146, R147) -/
  | frame (outW outH : Nat)
  /-- the host starts a batch (R151) -/
  | launch (outW outH : Nat)
  /-- the host ends a batch in flight (R149, R151) -/
  | abandon
deriving DecidableEq, Repr

end Sys2Proof
end

