-- ==== Sys2Proof/WellFormed.lean ====
section
/-! DEFINITION. Which instructions are well formed. The types carry the other bounds: a column is a
3-bit number (R101), a mode and a colour byte are bytes, a register field has 24 bits (R10). -/

namespace Sys2Proof

/-- R6: an output grid has at least one column and one row. -/
def gridLegal (outW outH : Nat) : Bool := decide (1 ≤ outW) && decide (1 ≤ outH)

/-- The well-formed instructions: a batch is launched, or evaluated whole, on a legal grid (R6); every
value of every other operand is legal (R60). -/
def Instr.wf : Instr → Bool
  | .frame outW outH => gridLegal outW outH
  | .launch outW outH => gridLegal outW outH
  | .mode0 | .mode1 | .mode2 | .mode3 | .mode4 | .mode5 | .mode6 | .mode7 => true
  | .fallback128 _ | .fallback64 _ | .fallback32 _ | .fallback16 _ | .fallback8 _ => true
  | .peek8 _ | .peek24 _ | .readDisplayRegisters | .toByteAddress _ _ _ | .toColor _ => true
  | .to24Color _ | .paletteLookup _ _ | .textPixelSet _ _ | .pixel _ _ => true
  | .dispatch _ _ _ _ | .cellColor _ _ _ | .textMode _ _ _ _ _ | .abandon => true

/-- Whether an encoding selects the instruction: the thirteen F-MODE rows of the opcode table. -/
def Instr.encoded : Instr → Bool
  | .mode0 | .mode1 | .mode2 | .mode3 | .mode4 | .mode5 | .mode6 | .mode7 => true
  | .fallback128 _ | .fallback64 _ | .fallback32 _ | .fallback16 _ | .fallback8 _ => true
  | .peek8 _ | .peek24 _ | .readDisplayRegisters | .toByteAddress _ _ _ | .toColor _ => false
  | .to24Color _ | .paletteLookup _ _ | .textPixelSet _ _ | .pixel _ _ => false
  | .dispatch _ _ _ _ | .cellColor _ _ _ | .textMode _ _ _ _ _ | .abandon => false
  | .frame _ _ | .launch _ _ => false

end Sys2Proof
end

