-- ==== Sys2Proof/Decode.lean ====
section
/-! DEFINITION. The decoder of the F-MODE format (R51, opcode_table.json) and, after it, the encoder
written from the same table. The mode byte is the one encoding of the hardware that selects an
operation; the other formats are operand formats (Machine/Operands.lean). -/

namespace Sys2Proof

/-- Why a list of bytes is not an instruction. No byte value is illegal (R60). -/
inductive DecodeError where
  /-- There is no byte to read a mode from. -/
  | noModeByte
  /-- F-MODE is one byte long (R50); more bytes follow it. -/
  | longerThanModeByte
deriving DecidableEq, Repr

/-- The routine a mode byte selects (R51, R104): all eight bits are compared, so `0x83` is a FALLBACK
byte and not mode 3. The bits a FALLBACK row marks `x` are kept in the instruction. -/
def decodeMode (b : Byte) : Instr :=
  if b = 0x00#8 then .mode0
  else if b = 0x01#8 then .mode1
  else if b = 0x02#8 then .mode2
  else if b = 0x03#8 then .mode3
  else if b = 0x04#8 then .mode4
  else if b = 0x05#8 then .mode5
  else if b = 0x06#8 then .mode6
  else if b = 0x07#8 then .mode7
  else if b.getLsbD 7 then .fallback128 (b.extractLsb' 0 7)
  else if b.getLsbD 6 then .fallback64 (b.extractLsb' 0 6)
  else if b.getLsbD 5 then .fallback32 (b.extractLsb' 0 5)
  else if b.getLsbD 4 then .fallback16 (b.extractLsb' 0 4)
  else .fallback8 (b.extractLsb' 0 3)

/-- The decoder on any list of bytes: exactly one mode byte (R50). -/
def decode : List Byte → Except DecodeError Instr
  | [] => .error .noModeByte
  | [b] => .ok (decodeMode b)
  | _ :: _ :: _ => .error .longerThanModeByte

/-- The mode byte of an instruction the opcode table encodes. -/
def encode : Instr → List Byte
  | .mode0 => [0b00000000#8]
  | .mode1 => [0b00000001#8]
  | .mode2 => [0b00000010#8]
  | .mode3 => [0b00000011#8]
  | .mode4 => [0b00000100#8]
  | .mode5 => [0b00000101#8]
  | .mode6 => [0b00000110#8]
  | .mode7 => [0b00000111#8]
  | .fallback128 x => [0b1#1 ++ x]
  | .fallback64 x => [0b01#2 ++ x]
  | .fallback32 x => [0b001#3 ++ x]
  | .fallback16 x => [0b0001#4 ++ x]
  | .fallback8 x => [0b00001#5 ++ x]
  -- the remaining rows of the table have no encoding (R50, "not selected by an encoding")
  | .peek8 _ | .peek24 _ | .readDisplayRegisters | .toByteAddress _ _ _ | .toColor _ => []
  | .to24Color _ | .paletteLookup _ _ | .textPixelSet _ _ | .pixel _ _ => []
  | .dispatch _ _ _ _ | .cellColor _ _ _ | .textMode _ _ _ _ _ | .abandon => []
  | .frame _ _ | .launch _ _ => []

/-- The byte of an instruction given as a number, `nbits` bits of it taken and the bits above them 0:
bit 0 of the number is bit 0 of the byte (R7). -/
def tableByte (nbits w : Nat) : Byte := BitVec.ofNat 8 (w % 2 ^ nbits)

/-- The instruction the decoder reads from a row's bits. No instruction is longer than 8 bits. -/
def decodeTableWord (nbits w : Nat) : Option Instr :=
  if nbits ≤ 8 then (decode [tableByte nbits w]).toOption else none

/-- The `(match, mask)` pairs of the thirteen F-MODE rows of opcode_table.json, in its order. -/
def opcodeRows : List (Byte × Byte) :=
  [(0x00#8, 0xFF#8), (0x01#8, 0xFF#8), (0x02#8, 0xFF#8), (0x03#8, 0xFF#8), (0x04#8, 0xFF#8),
   (0x05#8, 0xFF#8), (0x06#8, 0xFF#8), (0x07#8, 0xFF#8), (0x80#8, 0x80#8), (0x40#8, 0xC0#8),
   (0x20#8, 0xE0#8), (0x10#8, 0xF0#8), (0x08#8, 0xF8#8)]

/-- Whether a byte has a row's fixed bits. -/
def rowMatches (b : Byte) (row : Byte × Byte) : Bool := b &&& row.2 == row.1

end Sys2Proof
end

