-- ==== Sys2Proof/Config.lean ====
section
/-! DEFINITION. What the spec leaves to the implementation (R6, R22): the parameters that a machine
carries as plain data (`Params`), and the OPEN values no claim may depend on, each an opaque constant
without a body. -/

namespace Sys2Proof

/-- `OOB_POLICY` (R6, R74, R140): what a read outside the shared memory does. -/
inductive OobPolicy where
  /-- The default of the spec: the read raises `OutOfBounds` and the batch fails (R140). -/
  | fatal
  /-- Each byte address outside the memory is replaced by `OOB_SENTINEL` (R74). -/
  | clamp (sentinel : Nat)
deriving DecidableEq, Repr

/-- The parameters of R6 that the model takes as arguments and that a test may set. They are fixed for
one machine: no step changes them. (`MEM_WORDS` is `Memory.words`; `OUT_W`, `OUT_H` come with each
launch, R151.) -/
structure Params where
  /-- `OOB_POLICY` with `OOB_SENTINEL`. -/
  oobPolicy : OobPolicy
  /-- `(LG_X0, LG_Y0)`; `none` is the default of R6, the centred origin of R127. -/
  lgOrigin : Option (Int × Int)
deriving DecidableEq, Repr

namespace Config

/-- `FALLBACK_COLOR` (R6, R105): OPEN; the source gives "a muted blue-gray" and no numbers. Log 2. -/
opaque fallbackColor : Color

/-- `MODZ` (R6, R87): OPEN; the value of `a mod 0`, one total function of `a` alone. Log 3. -/
opaque modZ : Nat → Nat

/-- The colour of pixel number `i` of an output surface whose contents the spec leaves unspecified
(R23, R148, R149); `epoch` tells one such surface from the next. Log 4. -/
opaque freeColor (epoch i : Nat) : Color

/-- Which pending invocation runs next (R146: the order is free), read at a fresh counter value each
time. Log 5. -/
opaque invocationOrder : Nat → Nat

end Config

end Sys2Proof
end

