-- ==== Sys2Proof/Machine/State.lean ====
section
/-! DEFINITION. The state of the system the display_controller works in (10_state.md, 60_exceptions.md),
as plain data; the outcomes of a step; the state after reset (R23, R160). -/

namespace Sys2Proof.Machine

/-- Why the machine stops. Every constructor is raised outside the block's own operations: their one
exception, `OutOfBounds` (R140), has an entry the spec describes and is taken, not faulted. -/
inductive Fault where
  /-- Raised by `deliverInput` when the writer stores to a byte that does not exist (R14, R41: bytes are
  `0 .. MEM_SIZE - 1`). Safe: the model stops where the spec gives no effect. -/
  | noSuchByte (a : Nat)
deriving DecidableEq, Repr

/-- Why an operation has no meaning in a state. -/
inductive Refusal where
  /-- Raised by an arm of `exec` whose instruction has no meaning yet. Safe. No arm raises it. -/
  | notModelled (mnemonic : String)
  /-- Raised by `launch` and `frame` while a batch is in flight: R151 makes its absence a precondition.
  Safe. -/
  | batchInFlight
  /-- Raised by `abandon` when no batch is in flight: R151 gives it an effect on a batch in flight only.
  Safe. -/
  | noBatchInFlight
  /-- Raised by `launch` and `frame` on a grid without pixels: R6 has `OUT_W, OUT_H >= 1`. Safe. -/
  | emptyGrid
  /-- Raised by `pixel` for a coordinate outside the output grid: R13, such a coordinate is never
  issued. Safe. -/
  | noSuchPixel (px py : Nat)
deriving DecidableEq, Repr

/-- The one exception of the hardware (R140), with the offending byte address. -/
inductive Exception where
  | outOfBounds (a : Nat)
deriving DecidableEq, Repr

/-- What an operation that reads memory delivers: a value, or the exception. -/
abbrev Access (α : Type) := Except Exception α

/-- The shared memory (R14, R30): `MEM_WORDS` words of 32 bits, held as the bytes of R31. An address
below `MEM_SIZE` that `cells` does not list reads as `unlistedByte` (Machine/Ops.lean). -/
structure Memory where
  words : Nat
  cells : List Host.Cell
deriving DecidableEq, Repr

/-- The output surface `out` (R16): one colour per device pixel, keyed by the pixel's number in raster
order. A pixel not listed holds the unspecified colour `Config.freeColor epoch number`. -/
structure Surface where
  epoch : Nat
  pixels : List (Nat × Color)
deriving DecidableEq, Repr

/-- A batch in flight (R146): the coordinates `(px, py)` whose invocations have not run yet. -/
structure Batch where
  pending : List (Nat × Nat)
deriving DecidableEq, Repr

/-- How a batch ended (R19). -/
inductive BatchOutcome where
  | completed
  | failed
  | abandoned
deriving DecidableEq, Repr

/-- What the outside world asks for (R150, R151): a store by the writer, a launch or an abandonment by
the host. -/
inductive Input where
  | store (a : Nat) (b : Byte)
  | launch (outW outH : Nat)
  | abandon
deriving DecidableEq, Repr

/-- The value the last operation delivered, each in the form its rule gives it: a byte (R70), a 32-bit
word (R71), the pair of R80, a byte address (R85), a colour (R90, the port `rgba` of R170), a glyph bit
(R100); `none` when there is no value. -/
inductive Result where
  | none
  | byte (b : Byte)
  | word (w : Word)
  | registers (mode : Byte) (regs : RegisterBlock)
  | address (a : Nat)
  | color (c : Color)
  | bit (on : Bool)
deriving DecidableEq, Repr

/-- The state. The mode byte and the seven control registers are bytes 16 to 37 of `mem` (R15): they
have that one home, and an invocation's RegisterBlock is a function of it (R11). -/
structure State where
  /-- shared memory (R14, R15, R30) -/
  mem : Memory
  /-- the machine's parameters (R6, R22); no operation changes them -/
  params : Params
  /-- `OUT_W` of the latest launch (R151) -/
  outW : Nat
  /-- `OUT_H` of the latest launch (R151) -/
  outH : Nat
  /-- the output surface (R16) -/
  out : Surface
  /-- the batch in flight, if any (R146, R23) -/
  batch : Option Batch
  /-- the outcome of the latest batch, while no other has been launched (R19) -/
  outcome : Option BatchOutcome
  /-- column of the current invocation (R13, port `px` of R170) -/
  px : Nat
  /-- row of the current invocation (R13, port `py` of R170) -/
  py : Nat
  /-- what the last operation delivered (ports `rgba`, `rgba_valid` of R170) -/
  result : Result
  /-- the address of the `OutOfBounds` the last operation raised, if it raised one (R140, port `oob` of
  R170) -/
  oob : Option Nat
  /-- inputs of the writer and the host not yet taken, oldest first (R44, R150, R151) -/
  inbox : List Input
  /-- the model's own: how many free values have been drawn (log 4, log 5) -/
  free : Nat
deriving DecidableEq, Repr

/-- After reset (R23, R160): no batch in flight, no outcome. Memory and the output surface are
unspecified there; log 1, log 6 and log 7 name what the model holds instead (DESIGN CHOICE,
unsafe). -/
def State.reset : State where
  mem := { words := 32768, cells := [] }
  params := { oobPolicy := .fatal, lgOrigin := none }
  outW := 1
  outH := 1
  out := { epoch := 0, pixels := [] }
  batch := none
  outcome := none
  px := 0
  py := 0
  result := .none
  oob := none
  inbox := []
  free := 1

end Sys2Proof.Machine
end

