-- ==== Sys2Proof/Machine/Layout.lean ====
section
/-! DEFINITION. The fixed numbers of rule R6: the memory layout contract of R15 and the cell sizes of
R109. -/

namespace Sys2Proof.Machine

/-- `WORD_SIZE`: bytes per word of the shared memory. -/
@[simp] def wordSize : Nat := 4

/-- `MODE_OFFSET`. -/
@[simp] def modeOffset : Nat := 16

/-- `REG_OFFSET[screen]`. -/
@[simp] def screenOffset : Nat := 17

/-- `REG_OFFSET[palette]`. -/
@[simp] def paletteOffset : Nat := 20

/-- `REG_OFFSET[font]`. -/
@[simp] def fontOffset : Nat := 23

/-- `REG_OFFSET[height]`. -/
@[simp] def heightOffset : Nat := 26

/-- `REG_OFFSET[width]`. -/
@[simp] def widthOffset : Nat := 29

/-- `REG_OFFSET[row_offset]`. -/
@[simp] def rowOffsetOffset : Nat := 32

/-- `REG_OFFSET[col_offset]`. -/
@[simp] def colOffsetOffset : Nat := 35

/-- `PALETTE_ENTRIES`. -/
@[simp] def paletteEntries : Nat := 16

/-- `PALETTE_ENTRY_BYTES`. -/
@[simp] def paletteEntryBytes : Nat := 3

/-- `GLYPH_ROWS` and `GLYPH_COLS`. -/
@[simp] def glyphEdge : Nat := 8

/-- `HG_SCALE`: device pixels per cell edge, high-resolution graphics. -/
@[simp] def hgScale : Nat := 4

/-- `LG_SCALE`: device pixels per cell edge, low-resolution graphics. -/
@[simp] def lgScale : Nat := 3

/-- `LG_CELLS`: cells per edge of the low-resolution graphics window. -/
@[simp] def lgCells : Nat := 192

/-- Device pixels per edge of the low-resolution graphics window (R127): `192 * 3`. -/
@[simp] def lgWindow : Nat := 576

/-- `MEM_SIZE = 4 * MEM_WORDS` (R6). -/
def Memory.size (m : Memory) : Nat := wordSize * m.words

end Sys2Proof.Machine
end

