-- ==== Sys2Proof/Machine/Flags.lean ====
section
/-! DEFINITION. The three Booleans of rule R18: the bounds test of a read, the window test of the
low-resolution graphics modes, the glyph bit. The hardware has no other flag, and none of these
outlives its invocation. -/

namespace Sys2Proof.Machine

/-- R41: a byte address is in bounds when it is below `MEM_SIZE`. -/
def inBounds (m : Memory) (a : Nat) : Bool := decide (a < m.size)

/-- R41: a word index is in bounds when it is below `MEM_WORDS`. -/
def wordInBounds (m : Memory) (i : Nat) : Bool := decide (i < m.words)

/-- `inside` of R127 on the signed distances to the window's origin. -/
def insideWindow (dx dy : Int) : Bool :=
  decide (0 ≤ dx) && decide (dx < lgWindow) && decide (0 ≤ dy) && decide (dy < lgWindow)

/-- `text_pixel_set` (R100): bit `7 - col` of a glyph row, the leftmost column being bit 7 (R57). -/
def textPixelSet (g : Byte) (col : BitVec 3) : Bool := g.getLsbD (7 - col.toNat)

end Sys2Proof.Machine
end

