-- ==== Sys2Proof/Machine/Operands.lean ====
section
/-! DEFINITION. The operand formats (R50 to R59) and the geometry that turns a device pixel into cell
and glyph coordinates (R116, R126, R127). -/

namespace Sys2Proof.Machine

/-! ### Bytes, words and registers -/

/-- A byte lane of a word (R31): lane 0 is the least significant. -/
def lane (w : Word) (k : Nat) : Byte := (w >>> (8 * k)).setWidth 8

/-- R71: three bytes, the first the least significant, in a word with a zero high byte. -/
def packBytes (b0 b1 b2 : Byte) : Word :=
  b0.setWidth 32 ||| (b1.setWidth 32 <<< 8) ||| (b2.setWidth 32 <<< 16)

/-- F-REG24 (R52): the 24-bit field a `peek24` delivered. -/
def regField (w : Word) : Reg24 := w.setWidth 24

/-! ### Colour formats -/

/-- F-RGB332 (R53): `red3 = b[7:5]`. -/
def rgbRed (b : Byte) : BitVec 3 := b.extractLsb' 5 3

/-- F-RGB332 (R53): `green3 = b[4:2]`. -/
def rgbGreen (b : Byte) : BitVec 3 := b.extractLsb' 2 3

/-- F-RGB332 (R53): `blue2 = b[1:0]`. -/
def rgbBlue (b : Byte) : BitVec 2 := b.extractLsb' 0 2

/-- `expand3` (R91). The six middle values rest on the spec's decision D2 (DEDUCED,
unsafe: log 8). -/
def expand3 (v : BitVec 3) : Byte :=
  (v.setWidth 8 <<< 5) ||| (v.setWidth 8 <<< 2) ||| (v.setWidth 8 >>> 1)

/-- `expand2` (R91). -/
def expand2 (v : BitVec 2) : Byte :=
  (v.setWidth 8 <<< 6) ||| (v.setWidth 8 <<< 4) ||| (v.setWidth 8 <<< 2) ||| v.setWidth 8

/-- F-ATTR (R54): `fg = t[3:0]` when the glyph bit is on, `bg = t[7:4]` when it is off. -/
def attrIndex (t : Byte) (on : Bool) : Nat :=
  if on then (t.extractLsb' 0 4).toNat else (t.extractLsb' 4 4).toNat

/-- F-INDEX (R55): `b mod 16`; bits 7 to 4 are ignored. -/
def cellIndex (b : Byte) : Nat := b.toNat % paletteEntries

/-! ### Addresses that are plain sums -/

/-- R59, R94: the address of palette entry `i`. -/
def paletteEntryAddress (regs : RegisterBlock) (i : Nat) : Nat :=
  regs.palette.toNat + paletteEntryBytes * i

/-- R57, R59: the address of row `row` of the glyph of a character code. -/
def glyphRowAddress (regs : RegisterBlock) (code : Byte) (row : Nat) : Nat :=
  regs.font.toNat + (code.toNat <<< 3) + row

/-- R37: the number of cells of a plane, `N = width * height`. -/
def planeSize (regs : RegisterBlock) : Nat := regs.width.toNat * regs.height.toNat

/-! ### Geometry -/

/-- `s` of R116: 1 for low resolution, 0 for high. -/
def resShift : Resolution → Nat
  | .low => 1
  | .high => 0

/-- `cx` and `cy` of R116, from `px` and `py`. -/
def textCell (res : Resolution) (p : Nat) : Nat := p >>> (3 + resShift res)

/-- `gx` of R116, a 3-bit number (R101). -/
def glyphColumn (res : Resolution) (px : Nat) : BitVec 3 := BitVec.ofNat 3 (px >>> resShift res)

/-- `gy` of R116. -/
def glyphRow (res : Resolution) (py : Nat) : Nat := (py >>> resShift res) % glyphEdge

/-- `cx` and `cy` of R126. -/
def hgCell (p : Nat) : Nat := p / hgScale

/-- `cx` and `cy` of R127, used only inside the window. -/
def lgCell (d : Int) : Nat := d.toNat / lgScale

/-- The default origin of R6 and R127 along one edge: `floor((OUT - 576) / 2)`, negative when the grid is
smaller than the window (log 9). -/
def centredOrigin (out : Nat) : Int := ((out : Int) - lgWindow) / 2

/-- `(LG_X0, LG_Y0)` (R6, R127) on an output grid. -/
def windowOrigin (P : Params) (outW outH : Nat) : Int × Int :=
  match P.lgOrigin with
  | some o => o
  | none => (centredOrigin outW, centredOrigin outH)

/-- The window's origin on the grid of the latest launch. -/
def State.lgOrigin (s : State) : Int × Int := windowOrigin s.params s.outW s.outH

/-- The number of a pixel in raster order, the key of the output surface. -/
def pixelIndex (outW px py : Nat) : Nat := py * outW + px

/-- The coordinates of a grid (R146): `0 <= px < OUT_W`, `0 <= py < OUT_H`. -/
def gridPixels (outW outH : Nat) : List (Nat × Nat) :=
  (List.range outH).flatMap fun py => (List.range outW).map fun px => (px, py)

end Sys2Proof.Machine
end

