-- ==== Sys2Proof/Machine/Ops.lean ====
section
/-! DEFINITION. The named operations: reads and writes of the shared memory, the register parse, the
output surface, taking the exception `OutOfBounds`, and the life of a batch. -/

namespace Sys2Proof.Machine

/-! ### Sorted association lists -/

/-- The value listed for a key. -/
def entryAt {α : Type} : List (Nat × α) → Nat → Option α
  | [], _ => none
  | (k, v) :: rest, a => if a = k then some v else entryAt rest a

/-- List a value for a key, in place of the one listed before. -/
def setEntry {α : Type} (a : Nat) (v : α) : List (Nat × α) → List (Nat × α)
  | [] => [(a, v)]
  | (k, w) :: rest =>
    if a < k then (a, v) :: (k, w) :: rest
    else if a = k then (a, v) :: rest
    else (k, w) :: setEntry a v rest

/-- List nothing for a key. -/
def dropEntry {α : Type} (a : Nat) : List (Nat × α) → List (Nat × α)
  | [] => []
  | (k, w) :: rest => if a = k then rest else (k, w) :: dropEntry a rest

/-- The keys rise strictly. -/
abbrev Rising {α : Type} (l : List (Nat × α)) : Prop := l.Pairwise fun x y => x.1 < y.1

/-! ### The shared memory -/

/-- What an address no cell lists reads as. R23 leaves the contents after reset unspecified.
DESIGN CHOICE, unsafe: log 1. -/
def unlistedByte : Byte := 0x00#8

/-- `M[a]` of R31; it means something only where `a` is in bounds (R41). -/
def Memory.byteAt (m : Memory) (a : Nat) : Byte := (entryAt m.cells a).getD unlistedByte

/-- `W[i] = { M[4i+3], M[4i+2], M[4i+1], M[4i] }` (R30, R31). -/
def Memory.word (m : Memory) (i : Nat) : Word :=
  m.byteAt (4 * i + 3) ++ m.byteAt (4 * i + 2) ++ m.byteAt (4 * i + 1) ++ m.byteAt (4 * i)

/-- The writer's store of one byte (R150), keeping the canonical form. The block itself never writes
memory (R4, R21). -/
def Memory.write (m : Memory) (a : Nat) (b : Byte) : Memory :=
  { m with cells := if b = unlistedByte then dropEntry a m.cells else setEntry a b m.cells }

/-- The canonical form of a memory: addresses rise strictly, are in bounds, and no cell lists what an
unlisted address reads as; `MEM_SIZE <= 2^32` (R6). -/
abbrev Memory.wf (m : Memory) : Prop :=
  Rising m.cells ∧ (∀ c ∈ m.cells, c.1 < m.size ∧ c.2 ≠ unlistedByte) ∧ m.words ≤ 2 ^ 30

/-! ### byte_decoder -/

/-- The byte address a read uses: under `clamp` (R74) an address outside the memory is replaced by
`OOB_SENTINEL`. -/
def effectiveAddress (P : Params) (m : Memory) (a : Nat) : Nat :=
  match P.oobPolicy with
  | .fatal => a
  | .clamp sentinel => if inBounds m a then a else sentinel

/-- `peek8` (R70): the lane `a mod 4` of the word `a div 4`. -/
def peek8 (P : Params) (m : Memory) (addr : Nat) : Access Byte :=
  let a := effectiveAddress P m addr
  if inBounds m a then .ok (lane (m.word (a / wordSize)) (a % wordSize))
  else .error (.outOfBounds a)

/-- `peek24` (R71): three consecutive bytes; the address it raises with is the lowest of the three that
is out of bounds. -/
def peek24 (P : Params) (m : Memory) (addr : Nat) : Access Word := do
  let b0 ← peek8 P m addr
  let b1 ← peek8 P m (addr + 1)
  let b2 ← peek8 P m (addr + 2)
  return packBytes b0 b1 b2

/-- The word indices a `peek8` presents at the word port (R34, `mem_word_index` of R170). -/
def peek8Words (addr : Nat) : List Nat := [addr / wordSize]

/-- The word indices a `peek24` presents at the word port (R34): the next word only in the two
straddling alignment cases. -/
def peek24Words (addr : Nat) : List Nat :=
  if 2 ≤ addr % wordSize then [addr / wordSize, addr / wordSize + 1] else [addr / wordSize]

/-- The four alignment cases of R72: the 24-bit value spliced from the words at the word port. -/
def spliceWords (m : Memory) (addr : Nat) : Word :=
  let w0 := m.word (addr / wordSize)
  let w1 := m.word (addr / wordSize + 1)
  match addr % wordSize with
  | 0 => w0 &&& 0x00FFFFFF#32
  | 1 => (w0 >>> 8) &&& 0x00FFFFFF#32
  | 2 => ((w0 >>> 16) &&& 0xFFFF#32) ||| ((w1 &&& 0xFF#32) <<< 16)
  | _ => ((w0 >>> 24) &&& 0xFF#32) ||| ((w1 &&& 0xFFFF#32) <<< 8)

/-! ### register_block -/

/-- `read_display_registers` (R80): every field, in every mode, without validation (R81). -/
def readDisplayRegisters (P : Params) (m : Memory) : Access (Byte × RegisterBlock) := do
  let mode ← peek8 P m modeOffset
  let screen ← peek24 P m screenOffset
  let palette ← peek24 P m paletteOffset
  let font ← peek24 P m fontOffset
  let height ← peek24 P m heightOffset
  let width ← peek24 P m widthOffset
  let rowOffset ← peek24 P m rowOffsetOffset
  let colOffset ← peek24 P m colOffsetOffset
  return (mode,
    { screen := regField screen, palette := regField palette, font := regField font,
      height := regField height, width := regField width, rowOffset := regField rowOffset,
      colOffset := regField colOffset })

/-! ### The output surface -/

/-- A surface whose every pixel is unspecified, told apart from others by its epoch (log 4). -/
def blankSurface (epoch : Nat) : Surface := { epoch := epoch, pixels := [] }

/-- The colour of pixel number `i`. -/
def Surface.colorAt (o : Surface) (i : Nat) : Color :=
  (entryAt o.pixels i).getD (Config.freeColor o.epoch i)

/-- Whether a coordinate is on the output grid (R13). -/
def State.onGrid (s : State) (px py : Nat) : Bool := decide (px < s.outW) && decide (py < s.outH)

/-- `out[px, py]` (R16); no pixel outside the grid exists (R147). -/
def State.pixelAt (s : State) (px py : Nat) : Option Color :=
  if s.onGrid px py then some (s.out.colorAt (pixelIndex s.outW px py)) else none

/-- `out[px, py] <- c` (R16). -/
def State.setPixel (s : State) (px py : Nat) (c : Color) : State :=
  { s with out := { s.out with pixels := setEntry (pixelIndex s.outW px py) c s.out.pixels } }

/-! ### Delivering a value, and taking the exception -/

/-- An operation ends with a value. -/
def State.withResult (s : State) (v : Result) : State := { s with result := v, oob := none }

/-- A batch ends without having produced a frame (R148, R149): its outcome is set, every pixel of `out`
is unspecified from now on, and nothing else changes. -/
def endWithoutFrame (o : BatchOutcome) (s : State) : State :=
  { s with batch := none, outcome := some o, out := blankSurface s.free, free := s.free + 1 }

/-- Taking `OutOfBounds` (R140, R148): no value is delivered and the address is there for diagnosis; a
batch in flight fails. There is no saved state, no mode, no handler, hence no return from it (R145): the
next batch starts from the memory alone. R148 speaks of an invocation that raises, as a step runs it: that a
lone operation run through `exec` with a batch in flight, which is no invocation of that batch, fails the
batch too when it raises is the model's choice (DESIGN CHOICE, log 32). -/
def takeException (e : Exception) (s : State) : State :=
  match e with
  | .outOfBounds a =>
    let raised := { s with result := Result.none, oob := some a }
    match s.batch with
    | none => raised
    | some _ => endWithoutFrame .failed raised

/-- The end of an operation that reads memory: its value, or the exception. -/
def deliver (r : Access Result) (s : State) : Host.Outcome State Fault Refusal :=
  match r with
  | .ok v => .next (s.withResult v)
  | .error e => .next (takeException e s)

/-! ### The life of a batch -/

/-- A batch starts (R146, R151): every invocation of the grid is pending, there is no outcome yet, `out`
is sized to the grid with nothing specified in it, and the ports show nothing of what came before
(R145: no trace of a failure; log 19). -/
def startBatch (outW outH : Nat) (s : State) : State :=
  { s with
    outW := outW
    outH := outH
    out := blankSurface s.free
    batch := some { pending := gridPixels outW outH }
    outcome := none
    px := 0
    py := 0
    result := Result.none
    oob := none
    free := s.free + 1 }

/-- The batch completes (R147). -/
def completeBatch (s : State) : State := { s with batch := none, outcome := some .completed }

/-- The coordinate whose invocation runs next: any pending one (R146, log 5). -/
def nextPixel (k : Nat) : List (Nat × Nat) → Option (Nat × Nat)
  | [] => none
  | [p] => some p
  | p :: q :: rest =>
    let pending := p :: q :: rest
    some (pending.getD (Config.invocationOrder k % pending.length) p)

/-- The invocation of `p` starts: its coordinate is the current one, and it is no longer pending. -/
def issue (p : Nat × Nat) (b : Batch) (s : State) : State :=
  { s with
    px := p.1
    py := p.2
    batch := some { pending := b.pending.erase p }
    free := s.free + 1 }

/-- The current invocation writes the colour it delivered to its own pixel (R103, R150), and the batch
completes with its last invocation (R147). After an exception there is no batch and nothing is written
(R148). -/
def retire (s : State) : State :=
  match s.batch, s.result with
  | some b, .color c =>
    let written := s.setPixel s.px s.py c
    if b.pending.isEmpty then completeBatch written else written
  | _, _ => s

/-! ### The ports that are views of the state (R170) -/

/-- `rgba_valid`: the last operation delivered a colour. -/
def State.rgbaValid (s : State) : Bool :=
  match s.result with
  | .color _ => true
  | _ => false

/-- `done`: the latest batch completed. R170 has two bits for the three outcomes of R19; that neither is
set after an abandonment is the model's choice (DESIGN CHOICE, log 31). -/
def State.done (s : State) : Bool := s.outcome == some .completed

/-- `failed`: the latest batch failed; not set after an abandonment (DESIGN CHOICE, log 31). -/
def State.failed (s : State) : Bool := s.outcome == some .failed

end Sys2Proof.Machine
end

