-- ==== Sys2Proof/Machine/ColorDecoder.lean ====
section
/-! DEFINITION. color_decoder (43_color_decoder.md): `to_color`, `to_24_color`, `palette_lookup`, the
shared `cell_color` of R106, and their meanings. -/

namespace Sys2Proof.Machine

/-- `to_color` (R90); alpha is always 255. -/
def toColor (b : Byte) : Color :=
  { r := expand3 (rgbRed b), g := expand3 (rgbGreen b), b := expand2 (rgbBlue b), a := 255#8 }

/-- `to_24_color` (R93): byte 0 is red; byte 3 is ignored (R56); alpha is always 255. -/
def to24Color (w : Word) : Color :=
  { r := lane w 0, g := lane w 1, b := lane w 2, a := 255#8 }

/-- `palette_lookup` (R94): one entry is read, the index reduced modulo 16 first. -/
def paletteLookup (P : Params) (m : Memory) (index : Nat) (regs : RegisterBlock) : Access Color := do
  let w ← peek24 P m (paletteEntryAddress regs (index % paletteEntries))
  return to24Color w

/-- `cell_color` (R106, R95): a graphics-plane byte in the mode's colour model. -/
def cellColor (P : Params) (m : Memory) (b : Byte) (model : ColorModel) (regs : RegisterBlock) :
    Access Color :=
  match model with
  | .paletted => paletteLookup P m (cellIndex b) regs
  | .direct => .ok (toColor b)

/-- `to_color` (R90): it reads no memory. -/
def execToColor (b : Byte) (s : State) : Host.Outcome State Fault Refusal :=
  deliver (.ok (.color (toColor b))) s

/-- `to_24_color` (R93): it reads no memory. -/
def execTo24Color (w : Word) (s : State) : Host.Outcome State Fault Refusal :=
  deliver (.ok (.color (to24Color w))) s

/-- `palette_lookup` (R94). -/
def execPaletteLookup (index : Nat) (regs : RegisterBlock) (s : State) :
    Host.Outcome State Fault Refusal :=
  deliver ((paletteLookup s.params s.mem index regs).map Result.color) s

/-- `cell_color` (R106). -/
def execCellColor (b : Byte) (model : ColorModel) (regs : RegisterBlock) (s : State) :
    Host.Outcome State Fault Refusal :=
  deliver ((cellColor s.params s.mem b model regs).map Result.color) s

end Sys2Proof.Machine
end

