-- ==== Sys2Proof/Machine/Translator.lean ====
section
/-! DEFINITION. address_translator (42_address_translator.md): `to_byte_address` and its meaning. -/

namespace Sys2Proof.Machine

/-- `a mod n` of R7 and R87: for `n = 0` it is the open parameter `MODZ` (log 3). -/
def modulo (a n : Nat) : Nat := if n = 0 then Config.modZ a else a % n

/-- `to_byte_address` (R85), in the natural numbers (R8); no bounds check (R88). -/
def toByteAddress (x y : Nat) (regs : RegisterBlock) : Nat :=
  let row := modulo (y + regs.rowOffset.toNat) regs.height.toNat
  let rowStart := row * regs.width.toNat + regs.screen.toNat
  let col := modulo (x + regs.colOffset.toNat) regs.width.toNat
  col + rowStart

/-- `to_byte_address` (R85): it raises nothing. -/
def execToByteAddress (x y : Nat) (regs : RegisterBlock) (s : State) :
    Host.Outcome State Fault Refusal :=
  deliver (.ok (.address (toByteAddress x y regs))) s

end Sys2Proof.Machine
end

