-- ==== Sys2Proof/Machine/TextModes.lean ====
section
/-! DEFINITION. glyph_sampler and the text mode routines (44_glyph_sampler.md, 46_text_modes.md). -/

namespace Sys2Proof.Machine

/-- `text_mode` (R117): the character byte, the glyph row byte, the colour-plane byte (always read), and
in the paletted modes the one selected palette entry. -/
def textMode (P : Params) (m : Memory) (px py : Nat) (regs : RegisterBlock) (res : Resolution)
    (model : ColorModel) : Access Color := do
  let ca := toByteAddress (textCell res px) (textCell res py) regs
  let code ← peek8 P m ca
  let g ← peek8 P m (glyphRowAddress regs code (glyphRow res py))
  let on := textPixelSet g (glyphColumn res px)
  let t ← peek8 P m (ca + planeSize regs)
  match model with
  | .paletted => paletteLookup P m (attrIndex t on) regs
  | .direct => return toColor (if on then t else 0x00#8)

/-- `MODE0` (R118). -/
def mode0Color (P : Params) (m : Memory) (px py : Nat) (regs : RegisterBlock) : Access Color :=
  textMode P m px py regs .low .direct

/-- `MODE2` (R119). -/
def mode2Color (P : Params) (m : Memory) (px py : Nat) (regs : RegisterBlock) : Access Color :=
  textMode P m px py regs .high .direct

/-- `MODE4` (R120). -/
def mode4Color (P : Params) (m : Memory) (px py : Nat) (regs : RegisterBlock) : Access Color :=
  textMode P m px py regs .low .paletted

/-- `MODE6` (R121). -/
def mode6Color (P : Params) (m : Memory) (px py : Nat) (regs : RegisterBlock) : Access Color :=
  textMode P m px py regs .high .paletted

/-- A routine selected by a mode byte runs for the current invocation: its operand `regs` is parsed
afresh from the memory (R11, R82). -/
def withRegisters (s : State) (routine : RegisterBlock → Access Color) : Access Color := do
  let (_, regs) ← readDisplayRegisters s.params s.mem
  routine regs

/-- `text_pixel_set` (R100): it reads no memory. -/
def execTextPixelSet (g : Byte) (col : BitVec 3) (s : State) : Host.Outcome State Fault Refusal :=
  deliver (.ok (.bit (textPixelSet g col))) s

/-- `text_mode` (R117). -/
def execTextMode (px py : Nat) (regs : RegisterBlock) (res : Resolution) (model : ColorModel)
    (s : State) : Host.Outcome State Fault Refusal :=
  deliver ((textMode s.params s.mem px py regs res model).map Result.color) s

/-- `MODE0` (R118) at the current coordinate. -/
def execMode0 (s : State) : Host.Outcome State Fault Refusal :=
  deliver ((withRegisters s fun regs => mode0Color s.params s.mem s.px s.py regs).map Result.color) s

/-- `MODE2` (R119) at the current coordinate. -/
def execMode2 (s : State) : Host.Outcome State Fault Refusal :=
  deliver ((withRegisters s fun regs => mode2Color s.params s.mem s.px s.py regs).map Result.color) s

/-- `MODE4` (R120) at the current coordinate. -/
def execMode4 (s : State) : Host.Outcome State Fault Refusal :=
  deliver ((withRegisters s fun regs => mode4Color s.params s.mem s.px s.py regs).map Result.color) s

/-- `MODE6` (R121) at the current coordinate. -/
def execMode6 (s : State) : Host.Outcome State Fault Refusal :=
  deliver ((withRegisters s fun regs => mode6Color s.params s.mem s.px s.py regs).map Result.color) s

end Sys2Proof.Machine
end

