-- ==== Sys2Proof/Machine/GraphicsModes.lean ====
section
/-! DEFINITION. The graphics mode routines (47_graphics_modes.md). -/

namespace Sys2Proof.Machine

/-- High-resolution graphics (R126, R132): every device pixel belongs to a 4 × 4 cell. -/
def highGraphics (P : Params) (m : Memory) (px py : Nat) (regs : RegisterBlock) (model : ColorModel) :
    Access Color := do
  let b ← peek8 P m (toByteAddress (hgCell px) (hgCell py) regs)
  cellColor P m b model regs

/-- Low-resolution graphics (R127, R132): inside the window whose first pixel is `origin`, a 3 × 3 cell;
outside it, the zero byte decoded by the mode's own colour model (log 10). -/
def lowGraphics (P : Params) (m : Memory) (origin : Int × Int) (px py : Nat) (regs : RegisterBlock)
    (model : ColorModel) : Access Color :=
  let dx := (px : Int) - origin.1
  let dy := (py : Int) - origin.2
  if insideWindow dx dy then do
    let b ← peek8 P m (toByteAddress (lgCell dx) (lgCell dy) regs)
    cellColor P m b model regs
  else cellColor P m 0x00#8 model regs

/-- `MODE1` (R128). -/
def mode1Color (P : Params) (m : Memory) (origin : Int × Int) (px py : Nat) (regs : RegisterBlock) :
    Access Color :=
  lowGraphics P m origin px py regs .direct

/-- `MODE3` (R129). -/
def mode3Color (P : Params) (m : Memory) (px py : Nat) (regs : RegisterBlock) : Access Color :=
  highGraphics P m px py regs .direct

/-- `MODE5` (R130). -/
def mode5Color (P : Params) (m : Memory) (origin : Int × Int) (px py : Nat) (regs : RegisterBlock) :
    Access Color :=
  lowGraphics P m origin px py regs .paletted

/-- `MODE7` (R131). -/
def mode7Color (P : Params) (m : Memory) (px py : Nat) (regs : RegisterBlock) : Access Color :=
  highGraphics P m px py regs .paletted

/-- `MODE1` (R128) at the current coordinate. -/
def execMode1 (s : State) : Host.Outcome State Fault Refusal :=
  deliver ((withRegisters s fun regs =>
    mode1Color s.params s.mem s.lgOrigin s.px s.py regs).map Result.color) s

/-- `MODE3` (R129) at the current coordinate. -/
def execMode3 (s : State) : Host.Outcome State Fault Refusal :=
  deliver ((withRegisters s fun regs => mode3Color s.params s.mem s.px s.py regs).map Result.color) s

/-- `MODE5` (R130) at the current coordinate. -/
def execMode5 (s : State) : Host.Outcome State Fault Refusal :=
  deliver ((withRegisters s fun regs =>
    mode5Color s.params s.mem s.lgOrigin s.px s.py regs).map Result.color) s

/-- `MODE7` (R131) at the current coordinate. -/
def execMode7 (s : State) : Host.Outcome State Fault Refusal :=
  deliver ((withRegisters s fun regs => mode7Color s.params s.mem s.px s.py regs).map Result.color) s

end Sys2Proof.Machine
end

