-- ==== Sys2Proof/Machine/Dispatcher.lean ====
section
/-! DEFINITION. mode_dispatcher_mux (45_mode_dispatcher.md): `FALLBACK`, `dispatch`, `pixel`. -/

namespace Sys2Proof.Machine

/-- `FALLBACK` (R105): the open parameter `FALLBACK_COLOR` (log 2); no memory is read. -/
def fallbackColor : Access Color := .ok Config.fallbackColor

/-- `dispatch` (R104): the nine-way selection on the full mode byte; only the selected routine is
evaluated. -/
def dispatchColor (P : Params) (m : Memory) (origin : Int × Int) (mode : Byte) (px py : Nat)
    (regs : RegisterBlock) : Access Color :=
  if mode = 0#8 then mode0Color P m px py regs
  else if mode = 1#8 then mode1Color P m origin px py regs
  else if mode = 2#8 then mode2Color P m px py regs
  else if mode = 3#8 then mode3Color P m px py regs
  else if mode = 4#8 then mode4Color P m px py regs
  else if mode = 5#8 then mode5Color P m origin px py regs
  else if mode = 6#8 then mode6Color P m px py regs
  else if mode = 7#8 then mode7Color P m px py regs
  else fallbackColor

/-- The colour of `pixel(px, py)` (R103): the register parse comes before the selection, in every
mode. -/
def pixelColor (s : State) (px py : Nat) : Access Color := do
  let (mode, regs) ← readDisplayRegisters s.params s.mem
  dispatchColor s.params s.mem s.lgOrigin mode px py regs

/-- `pixel` (R103) on a coordinate of the grid: the colour is written to `out[px, py]`; an exception is
taken and nothing is written. It changes no set of pending invocations and ends no batch but by the
exception: taking a coordinate off the pending ones is `issue`, and completing the batch (R147) is `retire`,
which a step runs around the routine. That `pixel` run through `exec` on a coordinate still pending therefore
leaves it pending, so that a later step runs and writes it again, is the model's choice (DESIGN CHOICE,
log 30). -/
def runPixel (px py : Nat) (s : State) : State :=
  let current := { s with px := px, py := py }
  match pixelColor s px py with
  | .ok c => (current.withResult (.color c)).setPixel px py c
  | .error e => takeException e current

/-- `pixel` (R103); a coordinate outside the grid is never issued (R13). R146 and R150 have invocations
inside a batch only, each once: that `pixel` run through `exec` does the same with no batch in flight, or
on a coordinate already written, and that on a pending coordinate of a batch in flight it leaves the
coordinate pending and never completes the batch, is the model's choice (DESIGN CHOICE, log 30). No step
does so. -/
def execPixel (px py : Nat) (s : State) : Host.Outcome State Fault Refusal :=
  if s.onGrid px py then .next (runPixel px py s) else .refused (.noSuchPixel px py)

/-- `dispatch` (R104). -/
def execDispatch (mode : Byte) (px py : Nat) (regs : RegisterBlock) (s : State) :
    Host.Outcome State Fault Refusal :=
  deliver ((dispatchColor s.params s.mem s.lgOrigin mode px py regs).map Result.color) s

/-- `FALLBACK` (R105), mode bytes 128..255. -/
def execFallback128 (s : State) : Host.Outcome State Fault Refusal :=
  deliver (fallbackColor.map Result.color) s

/-- `FALLBACK` (R105), mode bytes 64..127. -/
def execFallback64 (s : State) : Host.Outcome State Fault Refusal :=
  deliver (fallbackColor.map Result.color) s

/-- `FALLBACK` (R105), mode bytes 32..63. -/
def execFallback32 (s : State) : Host.Outcome State Fault Refusal :=
  deliver (fallbackColor.map Result.color) s

/-- `FALLBACK` (R105), mode bytes 16..31. -/
def execFallback16 (s : State) : Host.Outcome State Fault Refusal :=
  deliver (fallbackColor.map Result.color) s

/-- `FALLBACK` (R105), mode bytes 8..15. -/
def execFallback8 (s : State) : Host.Outcome State Fault Refusal :=
  deliver (fallbackColor.map Result.color) s

end Sys2Proof.Machine
end

