-- ==== Sys2Proof/Machine/Batches.lean ====
section
/-! DEFINITION. Batches (60_exceptions.md): `frame`, and the host's operations `launch` and
`abandon`. -/

namespace Sys2Proof.Machine

/-- Whether the invocation of a coordinate raises on a snapshot (R103). -/
def raises (s : State) (p : Nat × Nat) : Bool :=
  match pixelColor s p.1 p.2 with
  | .ok _ => false
  | .error _ => true

/-- The address with which an invocation that raises does so; 0 for one that does not. -/
def raisedAddress (s : State) (p : Nat × Nat) : Nat :=
  match pixelColor s p.1 p.2 with
  | .ok _ => 0
  | .error (.outOfBounds a) => a

/-- Each coordinate of a list holds the colour of its invocation (R147). -/
def paintPixels : List (Nat × Nat) → State → State
  | [], s => s
  | p :: rest, s =>
    match pixelColor s p.1 p.2 with
    | .ok c => paintPixels rest (s.setPixel p.1 p.2 c)
    | .error _ => paintPixels rest s

/-- The ports after a frame whose last invocation was that of `p`. -/
def showLast (p : Nat × Nat) (s : State) : State :=
  { s with
    px := p.1
    py := p.2
    result :=
      match pixelColor s p.1 p.2 with
      | .ok c => .color c
      | .error _ => .none
    oob := none
    free := s.free + 1 }

/-- A whole batch on one snapshot (R146): if an invocation raises it fails (R148), else every pixel is
painted and it completes (R147). Which of several exceptions is taken (R141), and which invocation came
last (R146), is a free pick (log 5). -/
def runFrame (pixels : List (Nat × Nat)) (s : State) : State :=
  match nextPixel s.free (pixels.filter (raises s)) with
  | some p =>
    takeException (.outOfBounds (raisedAddress s p))
      { s with px := p.1, py := p.2, free := s.free + 1 }
  | none =>
    match nextPixel s.free pixels with
    | some p => completeBatch (showLast p (paintPixels pixels s))
    | none => completeBatch s

/-- `frame` (R146, R147): launch, and every invocation of the grid. It has the preconditions of a
launch (R151, R6). -/
def execFrame (outW outH : Nat) (s : State) : Host.Outcome State Fault Refusal :=
  if s.batch.isSome then .refused .batchInFlight
  else if gridLegal outW outH then
    .next (runFrame (gridPixels outW outH) (startBatch outW outH s))
  else .refused .emptyGrid

/-- `launch` (R151): a batch starts on the current memory contents. -/
def execLaunch (outW outH : Nat) (s : State) : Host.Outcome State Fault Refusal :=
  if s.batch.isSome then .refused .batchInFlight
  else if gridLegal outW outH then .next (startBatch outW outH s)
  else .refused .emptyGrid

/-- `abandon` (R149, R151): the batch in flight ends with the outcome `abandoned`. -/
def execAbandon (s : State) : Host.Outcome State Fault Refusal :=
  if s.batch.isSome then .next (endWithoutFrame .abandoned s) else .refused .noBatchInFlight

end Sys2Proof.Machine
end

