-- ==== Sys2Proof/Machine/ByteDecoder.lean ====
section
/-! DEFINITION. byte_decoder and register_block (40_byte_decoder.md, 41_register_block.md): the
meanings of `peek8`, `peek24` and `read_display_registers`. -/

namespace Sys2Proof.Machine

/-- `peek8` (R70). -/
def execPeek8 (addr : Nat) (s : State) : Host.Outcome State Fault Refusal :=
  deliver ((peek8 s.params s.mem addr).map Result.byte) s

/-- `peek24` (R71). -/
def execPeek24 (addr : Nat) (s : State) : Host.Outcome State Fault Refusal :=
  deliver ((peek24 s.params s.mem addr).map Result.word) s

/-- `read_display_registers` (R80). -/
def execReadDisplayRegisters (s : State) : Host.Outcome State Fault Refusal :=
  deliver ((readDisplayRegisters s.params s.mem).map fun r => Result.registers r.1 r.2) s

end Sys2Proof.Machine
end

