-- ==== Sys2Proof/Machine/Dispatch.lean ====
section
/-! DEFINITION. The meaning of every instruction, one arm per row of the opcode table. -/

namespace Sys2Proof.Machine

def exec (i : Instr) (s : State) : Host.Outcome State Fault Refusal :=
  match i with
  | .mode0 => Sys2Proof.Machine.execMode0 s
  | .mode1 => Sys2Proof.Machine.execMode1 s
  | .mode2 => Sys2Proof.Machine.execMode2 s
  | .mode3 => Sys2Proof.Machine.execMode3 s
  | .mode4 => Sys2Proof.Machine.execMode4 s
  | .mode5 => Sys2Proof.Machine.execMode5 s
  | .mode6 => Sys2Proof.Machine.execMode6 s
  | .mode7 => Sys2Proof.Machine.execMode7 s
  | .fallback128 _ => Sys2Proof.Machine.execFallback128 s
  | .fallback64 _ => Sys2Proof.Machine.execFallback64 s
  | .fallback32 _ => Sys2Proof.Machine.execFallback32 s
  | .fallback16 _ => Sys2Proof.Machine.execFallback16 s
  | .fallback8 _ => Sys2Proof.Machine.execFallback8 s
  | .peek8 addr => Sys2Proof.Machine.execPeek8 addr s
  | .peek24 addr => Sys2Proof.Machine.execPeek24 addr s
  | .readDisplayRegisters => Sys2Proof.Machine.execReadDisplayRegisters s
  | .toByteAddress x y regs => Sys2Proof.Machine.execToByteAddress x y regs s
  | .toColor b => Sys2Proof.Machine.execToColor b s
  | .to24Color w => Sys2Proof.Machine.execTo24Color w s
  | .paletteLookup index regs => Sys2Proof.Machine.execPaletteLookup index regs s
  | .textPixelSet g col => Sys2Proof.Machine.execTextPixelSet g col s
  | .pixel px py => Sys2Proof.Machine.execPixel px py s
  | .dispatch mode px py regs => Sys2Proof.Machine.execDispatch mode px py regs s
  | .cellColor b model regs => Sys2Proof.Machine.execCellColor b model regs s
  | .textMode px py regs res model => Sys2Proof.Machine.execTextMode px py regs res model s
  | .frame outW outH => Sys2Proof.Machine.execFrame outW outH s
  | .launch outW outH => Sys2Proof.Machine.execLaunch outW outH s
  | .abandon => Sys2Proof.Machine.execAbandon s

end Sys2Proof.Machine
end

