-- ==== Sys2Proof/Machine/Invoke.lean ====
section
/-! DEFINITION. What one step of each agent does (R150): an invocation runs, an input is taken. -/

namespace Sys2Proof.Machine

/-- The rest of an invocation whose coordinate is current (R103, R104): parse all 22 control bytes,
decode the mode byte, run the routine it selects, write the pixel. -/
def runInvocation (s : State) : Host.Outcome State Fault Refusal :=
  match readDisplayRegisters s.params s.mem with
  | .error e => .next (takeException e s)
  | .ok (mode, _) =>
    match exec (decodeMode mode) s with
    | .next t => .next (retire t)
    | .fault r => .fault r
    | .refused r => .refused r

/-- One atomic step of a batch in flight (R146): some pending invocation runs. A batch with nothing
pending completes (R147). -/
def invoke (b : Batch) (s : State) : Host.Outcome State Fault Refusal :=
  match nextPixel s.free b.pending with
  | none => .next (completeBatch s)
  | some p => runInvocation (issue p b s)

/-- An input is taken between batches (R44, R150): the writer's store, or an operation of the host. -/
def deliverInput (i : Input) (s : State) : Host.Outcome State Fault Refusal :=
  match i with
  | .store a v =>
    if inBounds s.mem a then .next { s with mem := s.mem.write a v } else .fault (.noSuchByte a)
  | .launch outW outH => exec (.launch outW outH) s
  | .abandon => exec .abandon s

/-- A batch in flight: the host may abandon it; the writer has no step (R44, R165) and a launch waits
(R151), so any other input stays in the queue while the invocations run. -/
def stepBatch (b : Batch) (s : State) : Host.Outcome State Fault Refusal :=
  match s.inbox with
  | .abandon :: rest => exec .abandon { s with inbox := rest }
  | _ => invoke b s

/-- No batch in flight: the oldest input is taken; without one the block stays idle (R160). -/
def stepIdle (s : State) : Host.Outcome State Fault Refusal :=
  match s.inbox with
  | [] => .next s
  | i :: rest => deliverInput i { s with inbox := rest }

/-- The least writer's work before a launch (R161, R42): byte 16 holds the mode byte, bytes 16 to 37
exist, and neither dimension is zero; then a batch of one pixel is launched on it. Log 12. -/
def placeModeByte (mode : Byte) (s : State) : State :=
  let m0 := ({ s.mem with words := max s.mem.words 10 } : Memory).write modeOffset mode
  let zeroField (o : Nat) : Bool :=
    m0.byteAt o == 0x00#8 && m0.byteAt (o + 1) == 0x00#8 && m0.byteAt (o + 2) == 0x00#8
  let m1 := if zeroField heightOffset then m0.write heightOffset 0x01#8 else m0
  let m2 := if zeroField widthOffset then m1.write widthOffset 0x01#8 else m1
  startBatch 1 1 { s with mem := m2, inbox := [] }

end Sys2Proof.Machine
end

