-- ==== Sys2Proof/Machine/Step.lean ====
section
/-! DEFINITION. One step of the whole system: the batch in flight, or, between batches, the writer and
the host. -/

namespace Sys2Proof.Machine

/-- One step: an invocation of the batch in flight, atomically (R146), or the next input (R150). -/
def step (s : State) : Host.Outcome State Fault Refusal :=
  match s.batch with
  | some b => stepBatch b s
  | none => stepIdle s

/-- `s` with a mode byte stored where the next invocation reads it, and that invocation pending, so
that `step` runs the routine it selects. Log 12. -/
def State.withFetchWord (s : State) (nbits w : Nat) : State :=
  placeModeByte (tableByte nbits w) s

end Sys2Proof.Machine
end

