-- ==== Sys2Proof/Safety.lean ====
section
/-! DEFINITION. The terms the claims are stated in: the control block as bytes, the bytes an invocation
reads (R40), the writer's contract (R162), and the invariants of a run. -/

namespace Sys2Proof.Machine

/-! ### The control block (R15) -/

/-- The three bytes at `a` as F-REG24 lays them out (R52): the lowest address least significant. -/
def Memory.field24 (m : Memory) (a : Nat) : Reg24 :=
  m.byteAt (a + 2) ++ m.byteAt (a + 1) ++ m.byteAt a

/-- The mode byte: byte 16. -/
def Memory.mode (m : Memory) : Byte := m.byteAt 16

/-- The seven registers at their offsets of R15. -/
def Memory.registers (m : Memory) : RegisterBlock :=
  { screen := m.field24 17
    palette := m.field24 20
    font := m.field24 23
    height := m.field24 26
    width := m.field24 29
    rowOffset := m.field24 32
    colOffset := m.field24 35 }

/-! ### The addresses the routines form -/

/-- Device pixels per edge of a glyph pixel (R109): 2 in low resolution, 1 in high. -/
def glyphScale : Resolution → Nat
  | .low => 2
  | .high => 1

/-- The character byte of a pixel in a text mode (R117): `ca`. -/
def charAddress (regs : RegisterBlock) (res : Resolution) (px py : Nat) : Nat :=
  toByteAddress (textCell res px) (textCell res py) regs

/-- The font byte of a pixel in a text mode (R117). -/
def fontAddress (m : Memory) (regs : RegisterBlock) (res : Resolution) (px py : Nat) : Nat :=
  glyphRowAddress regs (m.byteAt (charAddress regs res px py)) (glyphRow res py)

/-- The colour-plane byte of a pixel in a text mode (R117): the same cell, one plane further on. -/
def attrAddress (regs : RegisterBlock) (res : Resolution) (px py : Nat) : Nat :=
  charAddress regs res px py + planeSize regs

/-- Whether the glyph bit of a pixel is on (R117). -/
def glyphBit (m : Memory) (regs : RegisterBlock) (res : Resolution) (px py : Nat) : Bool :=
  textPixelSet (m.byteAt (fontAddress m regs res px py)) (glyphColumn res px)

/-- The palette index of a pixel in a paletted text mode (R117, R54). -/
def textIndex (m : Memory) (regs : RegisterBlock) (res : Resolution) (px py : Nat) : Nat :=
  attrIndex (m.byteAt (attrAddress regs res px py)) (glyphBit m regs res px py)

/-- The cell byte of a pixel in a high-resolution graphics mode (R126). -/
def highCellAddress (regs : RegisterBlock) (px py : Nat) : Nat := toByteAddress (px / 4) (py / 4) regs

/-- Whether a pixel is inside the low-resolution window (R127). -/
def inWindow (origin : Int × Int) (px py : Nat) : Bool :=
  insideWindow ((px : Int) - origin.1) ((py : Int) - origin.2)

/-- The cell byte of a pixel inside the low-resolution window (R127). -/
def lowCellAddress (regs : RegisterBlock) (origin : Int × Int) (px py : Nat) : Nat :=
  toByteAddress (((px : Int) - origin.1).toNat / 3) (((py : Int) - origin.2).toNat / 3) regs

/-- The first byte of a palette entry (R38, R94). -/
def entryAddress (regs : RegisterBlock) (index : Nat) : Nat := regs.palette.toNat + 3 * (index % 16)

/-- The colour of the palette entry an index selects (R38, R56, R94). -/
def entryColor (m : Memory) (regs : RegisterBlock) (index : Nat) : Color :=
  { r := m.byteAt (entryAddress regs index)
    g := m.byteAt (entryAddress regs index + 1)
    b := m.byteAt (entryAddress regs index + 2)
    a := 255#8 }

/-! ### The bytes an invocation reads (R40) -/

/-- The 22 control bytes, read in every mode (R80). -/
def controlReads : List Nat := List.range' 16 22

/-- The three bytes of the one palette entry an index selects. -/
def entryReads (regs : RegisterBlock) (index : Nat) : List Nat :=
  [entryAddress regs index, entryAddress regs index + 1, entryAddress regs index + 2]

/-- The bytes a text routine reads. -/
def textReads (m : Memory) (regs : RegisterBlock) (res : Resolution) (model : ColorModel)
    (px py : Nat) : List Nat :=
  [charAddress regs res px py, fontAddress m regs res px py, attrAddress regs res px py] ++
    match model with
    | .direct => []
    | .paletted => entryReads regs (textIndex m regs res px py)

/-- The bytes a graphics routine reads for a cell at an address. -/
def cellReads (m : Memory) (regs : RegisterBlock) (model : ColorModel) (a : Nat) : List Nat :=
  a :: match model with
    | .direct => []
    | .paletted => entryReads regs (cellIndex (m.byteAt a))

/-- The bytes a low-resolution graphics routine reads. -/
def lowReads (m : Memory) (regs : RegisterBlock) (origin : Int × Int) (model : ColorModel)
    (px py : Nat) : List Nat :=
  if inWindow origin px py then cellReads m regs model (lowCellAddress regs origin px py)
  else
    match model with
    | .direct => []
    | .paletted => entryReads regs 0

/-- The bytes the routine of a mode reads: one clause per line of the mode table (R51). -/
def routineReads (m : Memory) (regs : RegisterBlock) (origin : Int × Int) (mode : Byte)
    (px py : Nat) : List Nat :=
  if mode = 0#8 then textReads m regs .low .direct px py
  else if mode = 1#8 then lowReads m regs origin .direct px py
  else if mode = 2#8 then textReads m regs .high .direct px py
  else if mode = 3#8 then cellReads m regs .direct (highCellAddress regs px py)
  else if mode = 4#8 then textReads m regs .low .paletted px py
  else if mode = 5#8 then lowReads m regs origin .paletted px py
  else if mode = 6#8 then textReads m regs .high .paletted px py
  else if mode = 7#8 then cellReads m regs .paletted (highCellAddress regs px py)
  else []

/-- The byte addresses the invocation of a coordinate reads (R40). -/
def invocationReads (s : State) (px py : Nat) : List Nat :=
  controlReads ++ routineReads s.mem s.mem.registers s.lgOrigin s.mem.mode px py

/-! ### The writer's contract (R162) -/

/-- The sufficient condition of R162 for a batch without `OutOfBounds`, for any grid and any contents of
the data regions. -/
def writerContract (m : Memory) : Bool :=
  let r := m.registers
  let n := planeSize r
  let text := !m.mode.getLsbD 0
  let paletted := m.mode.getLsbD 2
  decide (38 ≤ m.size) &&
    (decide (8 ≤ m.mode.toNat) ||
      (decide (0 < r.width.toNat) && decide (0 < r.height.toNat) &&
        (if text then
          decide (r.screen.toNat + 2 * n ≤ m.size) && decide (r.font.toNat + 2048 ≤ m.size)
        else decide (r.screen.toNat + n ≤ m.size)) &&
        (!paletted || decide (r.palette.toNat + 48 ≤ m.size))))

/-! ### Invariants -/

/-- R6: `OOB_SENTINEL` is a byte address below `MEM_SIZE`. -/
def sentinelLegal (P : Params) (m : Memory) : Bool :=
  match P.oobPolicy with
  | .fatal => true
  | .clamp sentinel => inBounds m sentinel

/-- A pixel of the surface holds a colour an invocation of its batch wrote. -/
def State.written (s : State) (px py : Nat) : Prop :=
  (entryAt s.out.pixels (pixelIndex s.outW px py)).isSome = true

/-- The shape of a state that every step keeps: the memory in its canonical form, a legal grid (R6), a
surface of that grid and no other pixel (R147), a batch in flight whose pending coordinates are exactly
the pixels not yet written (R146, R147) and that has no outcome yet (R23) and shows no exception
(R145, R148), and after a completed batch every pixel written (R147). -/
structure Inv (s : State) : Prop where
  memory : s.mem.wf
  sentinel : sentinelLegal s.params s.mem = true
  grid : gridLegal s.outW s.outH = true
  surface : Rising s.out.pixels ∧ ∀ e ∈ s.out.pixels, e.1 < s.outW * s.outH
  inFlight : ∀ b, s.batch = some b →
    s.outcome = none ∧ s.oob = none ∧ b.pending ≠ [] ∧ b.pending.Nodup ∧
      (∀ p ∈ b.pending, s.onGrid p.1 p.2 = true) ∧
      ∀ px py, s.onGrid px py = true → ((px, py) ∈ b.pending ↔ ¬ s.written px py)
  completed : s.batch = none → s.outcome = some .completed →
    ∀ px py, s.onGrid px py = true → s.written px py

/-- While a batch is in flight, a pixel no longer pending holds the colour of `pixel(px, py)` on the
snapshot (R103, R147). -/
def Painted (s : State) : Prop :=
  ∀ b, s.batch = some b → ∀ px py, s.onGrid px py = true → (px, py) ∉ b.pending →
    pixelColor s px py = .ok (s.out.colorAt (pixelIndex s.outW px py))

end Sys2Proof.Machine
end

