-- ==== Sys2Proof/Certificates/Slice0/Obligations.lean ====
section
/-! DEFINITION. The statements about the model, from the numbered rules of spec/. `M[a]` is
`s.mem.byteAt a`, `W[i]` is `s.mem.word i`, `MEM_SIZE` is `s.mem.size`; `s.mem.registers` is the control
block of R15 read byte by byte. -/

open Sys2Proof Sys2Proof.Machine

/-! ### byte_decoder and register_block -/

/-- R70, under the default policy: the lane `addr mod 4` of the word `addr div 4`, or `OutOfBounds(addr)`
and no value. -/
def Obligations.Peek8ReadsItsLaneOrRaises : Prop :=
  ∀ (s : State) (addr : Nat),
    (addr < s.mem.size →
      exec (.peek8 addr) s =
        .next { s with
          result := .byte ((s.mem.word (addr / 4) >>> (8 * (addr % 4))).setWidth 8)
          oob := none }) ∧
    (s.params.oobPolicy = .fatal → s.mem.size ≤ addr →
      ∃ t, exec (.peek8 addr) s = .next t ∧ t.result = .none ∧ t.oob = some addr)

/-- R71, under the default policy: three consecutive bytes, little-endian, with a zero high byte, or
`OutOfBounds` with the lowest of the three addresses that is out of bounds. -/
def Obligations.Peek24ReadsThreeBytesOrRaises : Prop :=
  ∀ (s : State) (addr : Nat),
    (addr + 2 < s.mem.size →
      exec (.peek24 addr) s =
        .next { s with
          result := .word ((s.mem.byteAt addr).setWidth 32 |||
            ((s.mem.byteAt (addr + 1)).setWidth 32 <<< 8) |||
            ((s.mem.byteAt (addr + 2)).setWidth 32 <<< 16))
          oob := none }) ∧
    (s.params.oobPolicy = .fatal → s.mem.size ≤ addr + 2 →
      ∃ t, exec (.peek24 addr) s = .next t ∧ t.result = .none ∧
        t.oob = some (if s.mem.size ≤ addr then addr
          else if s.mem.size ≤ addr + 1 then addr + 1 else addr + 2))

/-- R72, R34: at the word port a `peek24` is the splice of the alignment case of its address, from words
that are in bounds and are exactly the words holding a needed byte. -/
def Obligations.Peek24IsTheWordPortSplice : Prop :=
  ∀ (s : State) (addr : Nat), addr + 2 < s.mem.size →
    exec (.peek24 addr) s =
      .next { s with result := .word (spliceWords s.mem addr), oob := none } ∧
    (∀ i, i ∈ peek24Words addr ↔ ∃ k < 3, i = (addr + k) / 4) ∧
    ∀ i ∈ peek24Words addr, i < s.mem.words

/-- R74 (decision D3, log 13): under `clamp` with a legal sentinel each byte address out of bounds is
replaced by itself, and no read raises. -/
def Obligations.ClampReplacesEachByteAddress : Prop :=
  ∀ (s : State) (addr k : Nat), s.params.oobPolicy = .clamp k → k < s.mem.size →
    let rd := fun a => if a < s.mem.size then s.mem.byteAt a else s.mem.byteAt k
    exec (.peek8 addr) s = .next { s with result := .byte (rd addr), oob := none } ∧
    exec (.peek24 addr) s =
      .next { s with
        result := .word ((rd addr).setWidth 32 ||| ((rd (addr + 1)).setWidth 32 <<< 8) |||
          ((rd (addr + 2)).setWidth 32 <<< 16))
        oob := none }

/-- R74, R140 (decision D3, log 13): under `clamp` with a legal sentinel the exception does not exist. Every
operation that delivers a value delivers one, `pixel` writes its pixel, every frame completes, and no
instruction but `abandon` (which leaves the port as it is, log 19) leaves an exception behind. `pixel` with
no batch in flight is the model's choice (log 30). -/
def Obligations.UnderClampNothingRaises : Prop :=
  ∀ (s : State) (k : Nat), s.params.oobPolicy = .clamp k → k < s.mem.size →
    (∀ (i : Instr) (t : State), i ≠ .abandon → exec i s = .next t → t.oob = none) ∧
    (∀ i : Instr, (∀ x y, i ≠ .pixel x y) → (∀ w h, i ≠ .frame w h) → (∀ w h, i ≠ .launch w h) →
      i ≠ .abandon → ∃ t, exec i s = .next t ∧ t.oob = none ∧ t.result ≠ .none) ∧
    (∀ px py, px < s.outW → py < s.outH →
      ∃ t c, exec (.pixel px py) s = .next t ∧ t.oob = none ∧ t.pixelAt px py = some c ∧
        t.result = .color c) ∧
    (∀ w h, s.batch = none → 1 ≤ w → 1 ≤ h →
      ∃ t, exec (.frame w h) s = .next t ∧ t.outcome = some .completed)

/-- R80, under the default policy: the mode byte and the seven fields of R15, or the exception when
bytes 16 to 37 do not all exist. -/
def Obligations.RegisterParseReadsTheControlBlock : Prop :=
  ∀ s : State,
    (38 ≤ s.mem.size →
      exec .readDisplayRegisters s =
        .next { s with
          result := .registers (s.mem.byteAt 16)
            { screen := s.mem.byteAt 19 ++ s.mem.byteAt 18 ++ s.mem.byteAt 17
              palette := s.mem.byteAt 22 ++ s.mem.byteAt 21 ++ s.mem.byteAt 20
              font := s.mem.byteAt 25 ++ s.mem.byteAt 24 ++ s.mem.byteAt 23
              height := s.mem.byteAt 28 ++ s.mem.byteAt 27 ++ s.mem.byteAt 26
              width := s.mem.byteAt 31 ++ s.mem.byteAt 30 ++ s.mem.byteAt 29
              rowOffset := s.mem.byteAt 34 ++ s.mem.byteAt 33 ++ s.mem.byteAt 32
              colOffset := s.mem.byteAt 37 ++ s.mem.byteAt 36 ++ s.mem.byteAt 35 }
          oob := none }) ∧
    (s.params.oobPolicy = .fatal → s.mem.size < 38 →
      ∃ t, exec .readDisplayRegisters s = .next t ∧ t.result = .none ∧ t.oob.isSome = true)

/-! ### address_translator -/

/-- R85 with both dimensions non-zero (zero dimensions: the next statement). -/
def Obligations.ToByteAddressIsTheScrolledCell : Prop :=
  ∀ (s : State) (x y : Nat) (regs : RegisterBlock),
    regs.width ≠ 0#24 → regs.height ≠ 0#24 →
    exec (.toByteAddress x y regs) s =
      .next { s with
        result := .address ((x + regs.colOffset.toNat) % regs.width.toNat +
          ((y + regs.rowOffset.toNat) % regs.height.toNat * regs.width.toNat + regs.screen.toNat))
        oob := none }

/-- R87 (decision D5, log 3): a zero dimension raises nothing; the remainder by zero is `MODZ`. -/
def Obligations.ZeroDimensionsUseTheOpenRemainder : Prop :=
  ∀ (s : State) (x y : Nat) (regs : RegisterBlock),
    (regs.height = 0#24 → regs.width ≠ 0#24 →
      exec (.toByteAddress x y regs) s =
        .next { s with
          result := .address ((x + regs.colOffset.toNat) % regs.width.toNat +
            (Config.modZ (y + regs.rowOffset.toNat) * regs.width.toNat + regs.screen.toNat))
          oob := none }) ∧
    (regs.width = 0#24 →
      exec (.toByteAddress x y regs) s =
        .next { s with
          result := .address (Config.modZ (x + regs.colOffset.toNat) + regs.screen.toNat)
          oob := none })

/-- R86: with non-zero dimensions the address stays in the plane for every coordinate and every scroll
value; it has the period of the framebuffer in both coordinates; a scroll offset equal to its dimension
is the same as zero. -/
def Obligations.TranslationIsToroidal : Prop :=
  ∀ (s : State) (x y : Nat) (regs : RegisterBlock),
    regs.width ≠ 0#24 → regs.height ≠ 0#24 →
    (∃ a, exec (.toByteAddress x y regs) s = .next { s with result := .address a, oob := none } ∧
      regs.screen.toNat ≤ a ∧ a < regs.screen.toNat + regs.width.toNat * regs.height.toNat) ∧
    (∀ x' y', (x' + regs.colOffset.toNat) % regs.width.toNat =
        (x + regs.colOffset.toNat) % regs.width.toNat →
      (y' + regs.rowOffset.toNat) % regs.height.toNat =
        (y + regs.rowOffset.toNat) % regs.height.toNat →
      exec (.toByteAddress x' y' regs) s = exec (.toByteAddress x y regs) s) ∧
    exec (.toByteAddress x y { regs with rowOffset := regs.height }) s =
      exec (.toByteAddress x y { regs with rowOffset := 0#24 }) s ∧
    exec (.toByteAddress x y { regs with colOffset := regs.width }) s =
      exec (.toByteAddress x y { regs with colOffset := 0#24 }) s

/-! ### color_decoder and glyph_sampler -/

/-- R90: the three fields of F-RGB332, each expanded, alpha 255. -/
def Obligations.ToColorExpandsThreeFields : Prop :=
  ∀ (s : State) (b : Byte),
    exec (.toColor b) s =
      .next { s with
        result := .color
          { r := expand3 (b.extractLsb' 5 3)
            g := expand3 (b.extractLsb' 2 3)
            b := expand2 (b.extractLsb' 0 2)
            a := 255#8 }
        oob := none }

/-- R92: the eight corner bytes give exactly 0 and 255 per channel. -/
def Obligations.CornerBytesAreSaturated : Prop :=
  ∀ (s : State), ∀ e ∈ ([(0x00#8, 0#8, 0#8, 0#8), (0x03#8, 0#8, 0#8, 255#8),
      (0x1C#8, 0#8, 255#8, 0#8), (0x1F#8, 0#8, 255#8, 255#8), (0xE0#8, 255#8, 0#8, 0#8),
      (0xE3#8, 255#8, 0#8, 255#8), (0xFC#8, 255#8, 255#8, 0#8),
      (0xFF#8, 255#8, 255#8, 255#8)] : List (Byte × Byte × Byte × Byte)),
    exec (.toColor e.1) s =
      .next { s with
        result := .color { r := e.2.1, g := e.2.2.1, b := e.2.2.2, a := 255#8 }, oob := none }

/-- R91 (decision D2, log 8): the two expansions are the bit replications of the rule, with the values of
its table; both rise strictly, and `expand2` is `85 * v`. The six middle values of `expand3` are the spec's
choice, not the source's. -/
def Obligations.ChannelExpansionIsMonotonic : Prop :=
  (∀ v : BitVec 3, (expand3 v).toNat = v.toNat * 32 + v.toNat * 4 + v.toNat / 2) ∧
  (∀ v : BitVec 2, (expand2 v).toNat = 85 * v.toNat) ∧
  ([0#3, 1#3, 2#3, 3#3, 4#3, 5#3, 6#3, 7#3].map expand3 =
    [0#8, 36#8, 73#8, 109#8, 146#8, 182#8, 219#8, 255#8]) ∧
  ([0#2, 1#2, 2#2, 3#2].map expand2 = [0#8, 85#8, 170#8, 255#8]) ∧
  (∀ v w : BitVec 3, v.toNat < w.toNat → (expand3 v).toNat < (expand3 w).toNat) ∧
  (∀ v w : BitVec 2, v.toNat < w.toNat → (expand2 v).toNat < (expand2 w).toNat)

/-- R93: the three low bytes are the components, whatever the fourth holds. -/
def Obligations.To24ColorTakesThreeBytes : Prop :=
  ∀ (s : State) (w : Word),
    exec (.to24Color w) s =
      .next { s with
        result := .color
          { r := w.extractLsb' 0 8, g := w.extractLsb' 8 8, b := w.extractLsb' 16 8, a := 255#8 }
        oob := none }

/-- R94, under the default policy: the entry `index mod 16`, its bytes red, green, blue in rising order,
or the exception; and the index counts modulo 16 in every state. -/
def Obligations.PaletteLookupReadsOneEntry : Prop :=
  ∀ (s : State) (index : Nat) (regs : RegisterBlock),
    let a := regs.palette.toNat + 3 * (index % 16)
    (a + 2 < s.mem.size →
      exec (.paletteLookup index regs) s =
        .next { s with
          result := .color
            { r := s.mem.byteAt a, g := s.mem.byteAt (a + 1), b := s.mem.byteAt (a + 2), a := 255#8 }
          oob := none }) ∧
    (s.params.oobPolicy = .fatal → s.mem.size ≤ a + 2 →
      ∃ t, exec (.paletteLookup index regs) s = .next t ∧ t.result = .none ∧
        t.oob.isSome = true) ∧
    exec (.paletteLookup index regs) s = exec (.paletteLookup (index % 16) regs) s

/-- R100: bit `7 - col` of the glyph row. -/
def Obligations.TextPixelSetTestsOneBit : Prop :=
  ∀ (s : State) (g : Byte) (col : BitVec 3),
    exec (.textPixelSet g col) s =
      .next { s with
        result := .bit (decide ((g >>> (7 - col.toNat)) &&& 1#8 = 1#8)), oob := none }

/-- R106: a cell byte in the direct model is `to_color` of it and always completes; in the paletted model
it is the palette entry of its low nibble, whatever bits 7 to 4 hold. -/
def Obligations.CellColorFollowsTheModel : Prop :=
  ∀ (s : State) (b : Byte) (regs : RegisterBlock),
    exec (.cellColor b .direct regs) s =
      .next { s with result := .color (toColor b), oob := none } ∧
    (let a := regs.palette.toNat + 3 * (b.toNat % 16)
     a + 2 < s.mem.size →
      exec (.cellColor b .paletted regs) s =
        .next { s with
          result := .color
            { r := s.mem.byteAt a, g := s.mem.byteAt (a + 1), b := s.mem.byteAt (a + 2), a := 255#8 }
          oob := none }) ∧
    exec (.cellColor b .paletted regs) s = exec (.paletteLookup (b.toNat % 16) regs) s

/-! ### Text modes -/

/-- R117 for every operand, under the default policy: the character, the glyph row and the attribute are
read whatever the glyph bit is, then the selected palette entry in the paletted model. -/
def Obligations.TextModeColoursItsPixel : Prop :=
  ∀ (s : State) (px py : Nat) (regs : RegisterBlock) (res : Resolution) (model : ColorModel),
    let k := glyphScale res
    let ca := toByteAddress (px / (8 * k)) (py / (8 * k)) regs
    let ga := regs.font.toNat + 8 * (s.mem.byteAt ca).toNat + py / k % 8
    let ta := ca + regs.width.toNat * regs.height.toNat
    let on := (s.mem.byteAt ga).getLsbD (7 - px / k % 8)
    let t := s.mem.byteAt ta
    let pa := regs.palette.toNat +
      3 * (if on then t.extractLsb' 0 4 else t.extractLsb' 4 4).toNat
    (ca < s.mem.size → ga < s.mem.size → ta < s.mem.size →
      (model = .paletted → pa + 2 < s.mem.size) →
      exec (.textMode px py regs res model) s =
        .next { s with
          result := .color (match model with
            | .direct => if on then toColor t else { r := 0#8, g := 0#8, b := 0#8, a := 255#8 }
            | .paletted =>
              { r := s.mem.byteAt pa, g := s.mem.byteAt (pa + 1), b := s.mem.byteAt (pa + 2),
                a := 255#8 })
          oob := none }) ∧
    (s.params.oobPolicy = .fatal →
      s.mem.size ≤ ca ∨ s.mem.size ≤ ga ∨ s.mem.size ≤ ta ∨
        (model = .paletted ∧ s.mem.size ≤ pa + 2) →
      ∃ u, exec (.textMode px py regs res model) s = .next u ∧ u.result = .none ∧
        u.oob.isSome = true)

/-- R118 to R121: a text routine is `text_mode` at the current coordinate, on the registers in memory,
with the routine's own resolution and colour model. -/
def Obligations.TextRoutinesAreTextMode : Prop :=
  ∀ s : State, 38 ≤ s.mem.size →
    exec .mode0 s = exec (.textMode s.px s.py s.mem.registers .low .direct) s ∧
    exec .mode2 s = exec (.textMode s.px s.py s.mem.registers .high .direct) s ∧
    exec .mode4 s = exec (.textMode s.px s.py s.mem.registers .low .paletted) s ∧
    exec .mode6 s = exec (.textMode s.px s.py s.mem.registers .high .paletted) s

/-- R118, R119: a direct text pixel is the decoded attribute byte where the glyph bit is on, and black
where it is off whatever the attribute byte holds. -/
def Obligations.DirectTextShowsAttributeOrBlack : Prop :=
  ∀ (s : State) (res : Resolution),
    let i : Instr := match res with | .low => .mode0 | .high => .mode2
    let k := glyphScale res
    let regs := s.mem.registers
    let ca := toByteAddress (s.px / (8 * k)) (s.py / (8 * k)) regs
    let ga := regs.font.toNat + 8 * (s.mem.byteAt ca).toNat + s.py / k % 8
    let ta := ca + regs.width.toNat * regs.height.toNat
    38 ≤ s.mem.size → ca < s.mem.size → ga < s.mem.size → ta < s.mem.size →
    exec i s =
      .next { s with
        result := .color (if (s.mem.byteAt ga).getLsbD (7 - s.px / k % 8)
          then toColor (s.mem.byteAt ta) else { r := 0#8, g := 0#8, b := 0#8, a := 255#8 })
        oob := none }

/-- R120, R121: a paletted text pixel is the palette entry of the attribute's low nibble where the glyph
bit is on and of its high nibble where it is off. -/
def Obligations.PalettedTextShowsForegroundOrBackground : Prop :=
  ∀ (s : State) (res : Resolution),
    let i : Instr := match res with | .low => .mode4 | .high => .mode6
    let k := glyphScale res
    let regs := s.mem.registers
    let ca := toByteAddress (s.px / (8 * k)) (s.py / (8 * k)) regs
    let ga := regs.font.toNat + 8 * (s.mem.byteAt ca).toNat + s.py / k % 8
    let ta := ca + regs.width.toNat * regs.height.toNat
    let idx := if (s.mem.byteAt ga).getLsbD (7 - s.px / k % 8)
      then (s.mem.byteAt ta).toNat % 16 else (s.mem.byteAt ta).toNat / 16
    let pa := regs.palette.toNat + 3 * idx
    38 ≤ s.mem.size → ca < s.mem.size → ga < s.mem.size → ta < s.mem.size →
    pa + 2 < s.mem.size →
    exec i s =
      .next { s with
        result := .color
          { r := s.mem.byteAt pa, g := s.mem.byteAt (pa + 1), b := s.mem.byteAt (pa + 2), a := 255#8 }
        oob := none }

/-- R122(a): with non-zero dimensions the three byte addresses of a text routine lie in the character
plane, the colour plane and the font. -/
def Obligations.TextReadsStayInTheirRegions : Prop :=
  ∀ (m : Memory) (regs : RegisterBlock) (res : Resolution) (px py : Nat),
    regs.width ≠ 0#24 → regs.height ≠ 0#24 →
    let n := regs.width.toNat * regs.height.toNat
    regs.screen.toNat ≤ charAddress regs res px py ∧
    charAddress regs res px py < regs.screen.toNat + n ∧
    regs.screen.toNat + n ≤ attrAddress regs res px py ∧
    attrAddress regs res px py < regs.screen.toNat + 2 * n ∧
    regs.font.toNat ≤ fontAddress m regs res px py ∧
    fontAddress m regs res px py ≤ regs.font.toNat + 2047

/-! ### Graphics modes -/

/-- R126, R129, R131, under the default policy: a high-resolution graphics pixel is its 4 × 4 cell's byte,
in the routine's colour model. That mode 7 has the 4 × 4 cell too is the spec's resolution of its conflict
C4. -/
def Obligations.HighGraphicsShowsTheCell : Prop :=
  ∀ s : State, 38 ≤ s.mem.size →
    let regs := s.mem.registers
    let ca := toByteAddress (s.px / 4) (s.py / 4) regs
    let b := s.mem.byteAt ca
    let pa := regs.palette.toNat + 3 * (b.toNat % 16)
    (ca < s.mem.size →
      exec .mode3 s = .next { s with result := .color (toColor b), oob := none }) ∧
    (ca < s.mem.size → pa + 2 < s.mem.size →
      exec .mode7 s =
        .next { s with
          result := .color
            { r := s.mem.byteAt pa, g := s.mem.byteAt (pa + 1), b := s.mem.byteAt (pa + 2),
              a := 255#8 }
          oob := none }) ∧
    (s.params.oobPolicy = .fatal → s.mem.size ≤ ca →
      ∃ t, exec .mode3 s = .next t ∧ t.result = .none ∧ t.oob.isSome = true) ∧
    (s.params.oobPolicy = .fatal → s.mem.size ≤ ca ∨ s.mem.size ≤ pa + 2 →
      ∃ t, exec .mode7 s = .next t ∧ t.result = .none ∧ t.oob.isSome = true)

/-- R128 (window and its default origin: decision D7, log 9): inside the window the 3 × 3 cell's byte in
direct colour, outside it black, with no cell read. The origin is the one the machine carries, or the
centred one of R127. -/
def Obligations.LowDirectGraphicsIsWindowed : Prop :=
  ∀ s : State, 38 ≤ s.mem.size →
    let regs := s.mem.registers
    let origin := s.params.lgOrigin.getD
      (Int.fdiv ((s.outW : Int) - 576) 2, Int.fdiv ((s.outH : Int) - 576) 2)
    let dx := (s.px : Int) - origin.1
    let dy := (s.py : Int) - origin.2
    let ca := toByteAddress (dx.toNat / 3) (dy.toNat / 3) regs
    (0 ≤ dx ∧ dx < 576 ∧ 0 ≤ dy ∧ dy < 576 →
      (ca < s.mem.size →
        exec .mode1 s =
          .next { s with result := .color (toColor (s.mem.byteAt ca)), oob := none }) ∧
      (s.params.oobPolicy = .fatal → s.mem.size ≤ ca →
        ∃ t, exec .mode1 s = .next t ∧ t.result = .none ∧ t.oob.isSome = true)) ∧
    (¬(0 ≤ dx ∧ dx < 576 ∧ 0 ≤ dy ∧ dy < 576) →
      exec .mode1 s =
        .next { s with result := .color { r := 0#8, g := 0#8, b := 0#8, a := 255#8 }, oob := none })

/-- R130 (window and its default origin: decision D7, log 9; outside it: decision D8, log 10): inside the
window the palette entry of the cell's low nibble, outside it palette entry 0; under the default policy it
raises where the cell byte (inside only) or the palette entry (inside and outside) is out of bounds. -/
def Obligations.LowPalettedGraphicsIsWindowed : Prop :=
  ∀ s : State, 38 ≤ s.mem.size →
    let regs := s.mem.registers
    let origin := s.params.lgOrigin.getD
      (Int.fdiv ((s.outW : Int) - 576) 2, Int.fdiv ((s.outH : Int) - 576) 2)
    let dx := (s.px : Int) - origin.1
    let dy := (s.py : Int) - origin.2
    let ca := toByteAddress (dx.toNat / 3) (dy.toNat / 3) regs
    let pa := regs.palette.toNat + 3 * ((s.mem.byteAt ca).toNat % 16)
    let p0 := regs.palette.toNat
    (0 ≤ dx ∧ dx < 576 ∧ 0 ≤ dy ∧ dy < 576 →
      (ca < s.mem.size → pa + 2 < s.mem.size →
        exec .mode5 s =
          .next { s with
            result := .color
              { r := s.mem.byteAt pa, g := s.mem.byteAt (pa + 1), b := s.mem.byteAt (pa + 2),
                a := 255#8 }
            oob := none }) ∧
      (s.params.oobPolicy = .fatal → s.mem.size ≤ ca ∨ s.mem.size ≤ pa + 2 →
        ∃ t, exec .mode5 s = .next t ∧ t.result = .none ∧ t.oob.isSome = true)) ∧
    (¬(0 ≤ dx ∧ dx < 576 ∧ 0 ≤ dy ∧ dy < 576) →
      (p0 + 2 < s.mem.size →
        exec .mode5 s =
          .next { s with
            result := .color
              { r := s.mem.byteAt p0, g := s.mem.byteAt (p0 + 1), b := s.mem.byteAt (p0 + 2),
                a := 255#8 }
            oob := none }) ∧
      (s.params.oobPolicy = .fatal → s.mem.size ≤ p0 + 2 →
        ∃ t, exec .mode5 s = .next t ∧ t.result = .none ∧ t.oob.isSome = true))

/-- R118, R126, R127, R128 (window: decision D7, log 9): pixels of one block show one colour: 2 × 2 device
pixels in low-resolution text, 4 × 4 in high-resolution graphics, and 3 × 3 inside the window of
low-resolution graphics. -/
def Obligations.OneBlockHasOneColour : Prop :=
  ∀ (s : State) (px py px' py' : Nat) (regs : RegisterBlock) (model : ColorModel),
    let dx := (px : Int) - s.lgOrigin.1
    let dy := (py : Int) - s.lgOrigin.2
    (px' / 2 = px / 2 → py' / 2 = py / 2 →
      exec (.textMode px' py' regs .low model) s = exec (.textMode px py regs .low model) s) ∧
    (px' / 4 = px / 4 → py' / 4 = py / 4 →
      exec (.dispatch 3#8 px' py' regs) s = exec (.dispatch 3#8 px py regs) s ∧
      exec (.dispatch 7#8 px' py' regs) s = exec (.dispatch 7#8 px py regs) s) ∧
    (0 ≤ dx ∧ dx < 576 ∧ 0 ≤ dy ∧ dy < 576 →
      Int.fdiv ((px' : Int) - s.lgOrigin.1) 3 = Int.fdiv dx 3 →
      Int.fdiv ((py' : Int) - s.lgOrigin.2) 3 = Int.fdiv dy 3 →
      exec (.dispatch 1#8 px' py' regs) s = exec (.dispatch 1#8 px py regs) s ∧
      exec (.dispatch 5#8 px' py' regs) s = exec (.dispatch 5#8 px py regs) s)

/-! ### mode_dispatcher_mux -/

/-- R105: a FALLBACK byte of any of its five rows gives the open colour, reading no memory. -/
def Obligations.FallbackShowsTheFallbackColour : Prop :=
  ∀ (s : State) (x7 : BitVec 7) (x6 : BitVec 6) (x5 : BitVec 5) (x4 : BitVec 4) (x3 : BitVec 3),
    ∀ i ∈ [Instr.fallback128 x7, .fallback64 x6, .fallback32 x5, .fallback16 x4, .fallback8 x3],
      exec i s = .next { s with result := .color Config.fallbackColor, oob := none }

/-- R104, R132 (window and its default origin: decision D7, log 9; the zero byte outside it: decision D8,
log 10): which routine each of the 256 mode bytes selects, for any coordinate and any registers. -/
def Obligations.DispatchSelectsByTheFullByte : Prop :=
  ∀ (s : State) (mode : Byte) (px py : Nat) (regs : RegisterBlock),
    let selected := exec (.dispatch mode px py regs) s
    let high := toByteAddress (px / 4) (py / 4) regs
    let origin := s.params.lgOrigin.getD
      (Int.fdiv ((s.outW : Int) - 576) 2, Int.fdiv ((s.outH : Int) - 576) 2)
    let dx := (px : Int) - origin.1
    let dy := (py : Int) - origin.2
    let low := toByteAddress (dx.toNat / 3) (dy.toNat / 3) regs
    let inside := 0 ≤ dx ∧ dx < 576 ∧ 0 ≤ dy ∧ dy < 576
    (mode = 0#8 → selected = exec (.textMode px py regs .low .direct) s) ∧
    (mode = 1#8 → inside → low < s.mem.size →
      selected = exec (.cellColor (s.mem.byteAt low) .direct regs) s) ∧
    (mode = 1#8 → ¬inside → selected = exec (.cellColor 0#8 .direct regs) s) ∧
    (mode = 2#8 → selected = exec (.textMode px py regs .high .direct) s) ∧
    (mode = 3#8 → high < s.mem.size →
      selected = exec (.cellColor (s.mem.byteAt high) .direct regs) s) ∧
    (mode = 4#8 → selected = exec (.textMode px py regs .low .paletted) s) ∧
    (mode = 5#8 → inside → low < s.mem.size →
      selected = exec (.cellColor (s.mem.byteAt low) .paletted regs) s) ∧
    (mode = 5#8 → ¬inside → selected = exec (.cellColor 0#8 .paletted regs) s) ∧
    (mode = 6#8 → selected = exec (.textMode px py regs .high .paletted) s) ∧
    (mode = 7#8 → high < s.mem.size →
      selected = exec (.cellColor (s.mem.byteAt high) .paletted regs) s) ∧
    (8 ≤ mode.toNat →
      selected = .next { s with result := .color Config.fallbackColor, oob := none })

/-- R104: on the registers of the memory and the current coordinate, `dispatch` is the routine the mode
byte encodes. -/
def Obligations.DispatchIsTheDecodedRoutine : Prop :=
  ∀ (s : State) (mode : Byte), 38 ≤ s.mem.size →
    exec (.dispatch mode s.px s.py s.mem.registers) s = exec (decodeMode mode) s

/-- R104, R40: `dispatch` completes with a colour when the bytes its routine names are in bounds, and
under the default policy raises when one of them is not. -/
def Obligations.DispatchCompletesOnInBoundsReads : Prop :=
  ∀ (s : State) (mode : Byte) (px py : Nat) (regs : RegisterBlock),
    ((∀ a ∈ routineReads s.mem regs s.lgOrigin mode px py, a < s.mem.size) →
      ∃ c, exec (.dispatch mode px py regs) s =
        .next { s with result := .color c, oob := none }) ∧
    (s.params.oobPolicy = .fatal →
      (∃ a ∈ routineReads s.mem regs s.lgOrigin mode px py, s.mem.size ≤ a) →
      ∃ t, exec (.dispatch mode px py regs) s = .next t ∧ t.result = .none ∧ t.oob.isSome = true)

/-- R103: on a coordinate of the grid whose reads are in bounds, `pixel` delivers the colour `dispatch`
gives for the mode byte and the registers in memory, writes it to its own pixel, and changes nothing else
but the current coordinate. That it does so with no batch in flight, or on a pixel already written, too, and
that in a batch in flight a pending coordinate stays pending, is the model's choice (log 30). -/
def Obligations.PixelWritesItsOwnPixel : Prop :=
  ∀ (s : State) (px py : Nat), px < s.outW → py < s.outH →
    (∀ a ∈ invocationReads s px py, a < s.mem.size) →
    ∃ c t, exec (.pixel px py) s = .next t ∧
      exec (.dispatch s.mem.mode px py s.mem.registers) s =
        .next { s with result := .color c, oob := none } ∧
      t.result = .color c ∧ t.oob = none ∧ t.pixelAt px py = some c ∧
      (∀ x y, (x, y) ≠ (px, py) → t.pixelAt x y = s.pixelAt x y) ∧
      t = { s with px := px, py := py, result := .color c, oob := none, out := t.out }

/-- R103, R140, R148, under the default policy: a `pixel` with a read out of bounds writes no pixel; a
batch in flight fails, and no pixel of `out` is specified then (decision D16, log 21). What it does with no
batch in flight (log 30), and that it fails the batch also where it is run through `exec` and is no
invocation of it (log 32), is the model's choice. -/
def Obligations.FaultingPixelWritesNothing : Prop :=
  ∀ (s : State) (px py : Nat), px < s.outW → py < s.outH → s.params.oobPolicy = .fatal →
    (∃ a ∈ invocationReads s px py, s.mem.size ≤ a) →
    ∃ t, exec (.pixel px py) s = .next t ∧ t.result = .none ∧ t.oob.isSome = true ∧
      t.mem = s.mem ∧
      (s.batch = none → t.out = s.out ∧ t.outcome = s.outcome) ∧
      (s.batch ≠ none → t.batch = none ∧ t.outcome = some .failed ∧ t.out.pixels = [])

/-- R40, R141, under the default policy: an invocation raises exactly when a byte its rules name is out of
bounds, and it names the 22 control bytes and at most 28 bytes (R107). Which bytes are named is decision
D12 (log 17). -/
def Obligations.InvocationRaisesIffANamedReadIsOutOfBounds : Prop :=
  ∀ (s : State) (px py : Nat),
    (s.params.oobPolicy = .fatal →
      ((∃ e, pixelColor s px py = .error e) ↔
        ∃ a ∈ invocationReads s px py, s.mem.size ≤ a)) ∧
    (∀ a, 16 ≤ a → a ≤ 37 → a ∈ invocationReads s px py) ∧
    (invocationReads s px py).length ≤ 28

/-- R40, R107, R108: the colour depends on the parameters, the grid, `MEM_SIZE` and the bytes the rules
name, and on nothing else of the state. -/
def Obligations.ColourDependsOnNamedReadsOnly : Prop :=
  ∀ (s u : State) (px py : Nat),
    s.params = u.params → s.outW = u.outW → s.outH = u.outH → s.mem.words = u.mem.words →
    (∀ a ∈ invocationReads s px py, a < s.mem.size ∧ s.mem.byteAt a = u.mem.byteAt a) →
    ∃ c, pixelColor s px py = .ok c ∧ pixelColor u px py = .ok c

/-! ### Batches, the host and the writer -/

/-- R151, R146, R145: a launch with no batch in flight starts a batch whose pending invocations are exactly
the coordinates of the grid, once each, touches neither memory nor parameters, and keeps no trace of what
came before. Two parts are the model's choice: no pixel of `out` is specified from the launch until its own
write (log 21: the spec does not say what it holds until then), and the coordinate and the ports are as after
reset (log 7, log 19). -/
def Obligations.LaunchMakesEveryPixelPending : Prop :=
  ∀ (s : State) (w h : Nat), s.batch = none → 1 ≤ w → 1 ≤ h →
    ∃ t b, exec (.launch w h) s = .next t ∧ t.batch = some b ∧ b.pending.Nodup ∧
      (∀ px py, (px, py) ∈ b.pending ↔ px < w ∧ py < h) ∧
      t.outW = w ∧ t.outH = h ∧ t.outcome = none ∧ t.mem = s.mem ∧ t.params = s.params ∧
      t.inbox = s.inbox ∧ t.out.pixels = [] ∧ t.px = 0 ∧ t.py = 0 ∧ t.result = .none ∧
      t.oob = none

/-- R149: abandoning a batch in flight ends it with the outcome `abandoned`, shared memory unchanged. That no
pixel of `out` is specified is the spec's decision D16 (log 21); that the coordinate and the ports stay as
they are is the model's choice (log 19). -/
def Obligations.AbandonEndsTheBatch : Prop :=
  ∀ (s : State) (b : Batch), s.batch = some b →
    ∃ t, exec .abandon s = .next t ∧ t.batch = none ∧ t.outcome = some .abandoned ∧
      t.out.pixels = [] ∧ t.mem = s.mem ∧ t.params = s.params ∧ t.outW = s.outW ∧
      t.outH = s.outH ∧ t.inbox = s.inbox ∧ t.px = s.px ∧ t.py = s.py ∧ t.result = s.result ∧
      t.oob = s.oob

/-- R151, R13, R41 and the model's choices of log 14 and log 27: the host's operations are refused outside
their preconditions, `pixel` is refused outside the grid, and a store of the writer to a byte that does not
exist faults. -/
def Obligations.HostOperationsOutsideTheirPreconditions : Prop :=
  ∀ (s : State) (w h px py a : Nat) (v : Byte) (rest : List Input),
    (s.batch ≠ none → exec (.launch w h) s = .refused .batchInFlight ∧
      exec (.frame w h) s = .refused .batchInFlight) ∧
    (s.batch = none → (w = 0 ∨ h = 0) → exec (.launch w h) s = .refused .emptyGrid ∧
      exec (.frame w h) s = .refused .emptyGrid) ∧
    (s.batch = none → exec .abandon s = .refused .noBatchInFlight) ∧
    (¬(px < s.outW ∧ py < s.outH) → exec (.pixel px py) s = .refused (.noSuchPixel px py)) ∧
    (s.batch = none → s.inbox = .store a v :: rest → s.mem.size ≤ a →
      step s = .fault (.noSuchByte a))

/-- R147: a frame none of whose invocations raises completes, and then every pixel of the grid holds
`pixel(px, py)` of the snapshot and there is no other pixel. -/
def Obligations.FrameWithoutExceptionCompletes : Prop :=
  ∀ (s : State) (w h : Nat), s.batch = none → 1 ≤ w → 1 ≤ h →
    (∀ px py, px < w → py < h → ∃ c, pixelColor (startBatch w h s) px py = .ok c) →
    ∃ t, exec (.frame w h) s = .next t ∧ t.batch = none ∧ t.outcome = some .completed ∧
      t.mem = s.mem ∧ t.outW = w ∧ t.outH = h ∧
      ∀ px py, (px < w ∧ py < h →
          ∃ c, pixelColor (startBatch w h s) px py = .ok c ∧ t.pixelAt px py = some c) ∧
        (¬(px < w ∧ py < h) → t.pixelAt px py = none)

/-- R148 (which pixels hold what afterwards: decision D16, log 21): a frame with at least one invocation that
raises fails, specifies no pixel, and leaves the shared memory unchanged. The exception on the port is that
of one of the invocations that raise; R141 leaves open which (log 5). -/
def Obligations.FrameWithAnExceptionFails : Prop :=
  ∀ (s : State) (w h : Nat), s.batch = none → 1 ≤ w → 1 ≤ h →
    (∃ px py e, px < w ∧ py < h ∧ pixelColor (startBatch w h s) px py = .error e) →
    ∃ t, exec (.frame w h) s = .next t ∧ t.batch = none ∧ t.outcome = some .failed ∧
      t.out.pixels = [] ∧ t.mem = s.mem ∧ t.params = s.params ∧ t.result = .none ∧
      t.px < w ∧ t.py < h ∧
      ∃ a, t.oob = some a ∧ pixelColor (startBatch w h s) t.px t.py = .error (.outOfBounds a)

/-- R162: a memory that keeps the writer's contract lets every frame, on every grid, complete. -/
def Obligations.WriterContractMakesEveryFrameComplete : Prop :=
  ∀ (s : State) (w h : Nat), s.batch = none → 1 ≤ w → 1 ≤ h → writerContract s.mem = true →
    ∃ t, exec (.frame w h) s = .next t ∧ t.batch = none ∧ t.outcome = some .completed

/-- R145, R11, R20: the image of a frame depends on the memory and the parameters alone; earlier batches
and their failures leave no trace in it. -/
def Obligations.FrameForgetsEarlierBatches : Prop :=
  ∀ (s u s' u' : State) (w h : Nat), s.mem = u.mem → s.params = u.params →
    exec (.frame w h) s = .next s' → exec (.frame w h) u = .next u' →
    s'.outcome = u'.outcome ∧
      (s'.outcome = some .completed → ∀ px py, s'.pixelAt px py = u'.pixelAt px py)

/-- R148 for every operation that is not a host operation: what an exception raised during a batch does. That
no pixel of `out` is specified then is the spec's decision D16 (log 21). R148 speaks of invocations: that an
operation run alone through `exec` fails the batch in flight too is the model's choice (log 32). -/
def Obligations.ExceptionDuringABatchFailsIt : Prop :=
  ∀ (i : Instr) (s t : State) (b : Batch), s.batch = some b → i.wf = true →
    (∀ w h, i ≠ .launch w h) → (∀ w h, i ≠ .frame w h) → i ≠ .abandon →
    exec i s = .next t → t.oob ≠ none →
    t.batch = none ∧ t.outcome = some .failed ∧ t.result = .none ∧ t.out.pixels = [] ∧
      t.mem = s.mem ∧ t.params = s.params ∧ t.outW = s.outW ∧ t.outH = s.outH ∧
      t.inbox = s.inbox

/-- R4, R21: no operation changes a byte of the shared memory, its size, or a parameter. -/
def Obligations.NoOperationWritesMemory : Prop :=
  ∀ (i : Instr) (s t : State), exec i s = .next t →
    (∀ a, t.mem.byteAt a = s.mem.byteAt a) ∧ t.mem.words = s.mem.words ∧ t.params = s.params ∧
      t.inbox = s.inbox

/-- The frame of every operation but `pixel`, `frame`, `launch` and `abandon`: where no exception is
raised only the delivered value changes (R9, R103: the pixel write belongs to `pixel`). -/
def Obligations.OperationsDeliverAValueOnly : Prop :=
  ∀ (i : Instr) (s t : State), (∀ x y, i ≠ .pixel x y) → (∀ w h, i ≠ .frame w h) →
    (∀ w h, i ≠ .launch w h) → i ≠ .abandon → exec i s = .next t → t.oob = none →
    (∀ a, t.mem.byteAt a = s.mem.byteAt a) ∧ t = { s with result := t.result, oob := none } ∧
      t.result ≠ .none

/-! ### The machine -/

/-- R103, R104: with a batch in flight and no abandonment waiting, a step issues the next pending
coordinate, runs the instruction that the mode byte decodes to, and retires it: the colour goes to
`out[px, py]`, and the batch completes with its last invocation. -/
def Obligations.StepRunsTheDecodedInstruction : Prop :=
  ∀ (s t : State) (b : Batch) (p : Nat × Nat) (i : Instr),
    s.batch = some b → (∀ rest, s.inbox ≠ .abandon :: rest) →
    nextPixel s.free b.pending = some p → 38 ≤ s.mem.size →
    decode [s.mem.byteAt 16] = .ok i → i.wf = true →
    exec i (issue p b s) = .next t → step s = .next (retire t)

/-- R103, R146 (one invocation is one step: decision D14, log 25): one step of a batch is `pixel` at a pending
coordinate, followed by the end of the batch when nothing is pending any more. -/
def Obligations.BatchStepIsOnePixel : Prop :=
  ∀ (s : State) (b : Batch), Inv s → s.batch = some b → (∀ rest, s.inbox ≠ .abandon :: rest) →
    ∃ p u, p ∈ b.pending ∧ exec (.pixel p.1 p.2) (issue p b s) = .next u ∧
      step s = .next (if u.batch = some { pending := [] } then completeBatch u else u)

/-- R43, R44, R165: while a batch is in flight no step changes shared memory, and a store of the writer
or a launch stays in the queue (decision D15, log 18). -/
def Obligations.MemoryIsASnapshotDuringABatch : Prop :=
  ∀ (s t : State) (b : Batch), s.batch = some b → step s = .next t →
    t.mem = s.mem ∧ t.params = s.params ∧
      (t.inbox = s.inbox ∨ s.inbox = .abandon :: t.inbox ∧ t.outcome = some .abandoned)

/-- R107, R142: with a batch in flight, a step of a legal state always answers a next state: ordinary data
stops nothing. -/
def Obligations.BatchStepsNeverStop : Prop :=
  ∀ (s : State) (b : Batch), Inv s → s.batch = some b → ∃ t, step s = .next t

/-- R42, R80, R105, R148 under the default policy: on a memory shorter than 38 bytes every invocation raises,
whatever the mode byte, and the batch fails. That it ends at its first exception is the model's choice
(log 11); that no pixel is specified then is the spec's decision D16 (log 21). -/
def Obligations.ShortMemoryFailsEveryBatch : Prop :=
  ∀ (s : State) (b : Batch), s.batch = some b → (∀ rest, s.inbox ≠ .abandon :: rest) →
    b.pending ≠ [] → s.params.oobPolicy = .fatal → s.mem.size < 38 →
    ∃ t, step s = .next t ∧ t.batch = none ∧ t.outcome = some .failed ∧ t.out.pixels = []

/-- R150, R44: between batches the writer's store changes the byte it names, no other, and not the size of
the memory. That a step takes the store from the head of a queue is the model's choice (log 18). -/
def Obligations.WriterStoresBetweenBatches : Prop :=
  ∀ (s : State) (a : Nat) (v : Byte) (rest : List Input),
    s.mem.wf → s.batch = none → s.inbox = .store a v :: rest → a < s.mem.size →
    ∃ t, step s = .next t ∧ t.mem.byteAt a = v ∧
      (∀ c, c ≠ a → t.mem.byteAt c = s.mem.byteAt c) ∧ t.mem.words = s.mem.words ∧ t.mem.wf ∧
      t = { s with mem := t.mem, inbox := rest }

/-- R151: between batches the host's launch at the head of the queue is taken, and is `launch` on the rest of
the state: it starts a batch on the current memory on a legal grid and is refused on an empty one. That
inputs wait in a queue, and that an abandonment without a batch is refused, are the model's choices (log 18,
log 14). -/
def Obligations.HostInputsAreTakenBetweenBatches : Prop :=
  ∀ (s : State) (w h : Nat) (rest : List Input), s.batch = none →
    (s.inbox = .launch w h :: rest → 1 ≤ w → 1 ≤ h →
      ∃ t b, step s = .next t ∧ exec (.launch w h) { s with inbox := rest } = .next t ∧
        t.batch = some b ∧ (∀ px py, (px, py) ∈ b.pending ↔ px < w ∧ py < h) ∧
        t.outW = w ∧ t.outH = h ∧ t.mem = s.mem ∧ t.params = s.params ∧ t.inbox = rest) ∧
    (s.inbox = .launch w h :: rest → w = 0 ∨ h = 0 → step s = .refused .emptyGrid) ∧
    (s.inbox = .abandon :: rest → step s = .refused .noBatchInFlight)

/-- R149: the host's abandonment, waiting while a batch is in flight, ends the batch. That it is taken before
any further invocation is the model's choice (log 18), and that no pixel of `out` is specified then is the
spec's decision D16 (log 21). -/
def Obligations.AbandonmentIsTakenDuringABatch : Prop :=
  ∀ (s : State) (b : Batch) (rest : List Input), s.batch = some b → s.inbox = .abandon :: rest →
    ∃ t, step s = .next t ∧ t.batch = none ∧ t.outcome = some .abandoned ∧ t.inbox = rest ∧
      t.mem = s.mem ∧ t.out.pixels = []

/-- R160 (decision D17): between batches, with no input waiting, the block is idle. -/
def Obligations.BlockIsIdleBetweenBatches : Prop :=
  ∀ s : State, s.batch = none → s.inbox = [] → step s = .next s

/-- R23 (decision D17): right after reset no batch is in flight, there is no outcome, and no invocation's
pixel is in `out`. -/
def Obligations.ResetHasNoBatch : Prop :=
  State.reset.batch = none ∧ State.reset.outcome = none ∧ State.reset.out.pixels = []

/-- The invariant holds at reset. -/
def Obligations.InvariantHoldsAtReset : Prop := Inv State.reset ∧ Painted State.reset

/-- R14, R30, R146, R147: every step from every state keeps the invariant. -/
def Obligations.EveryStepKeepsTheInvariant : Prop :=
  ∀ s t : State, Inv s → step s = .next t → Inv t

/-- R147, R103: every step keeps "a pixel no longer pending holds `pixel(px, py)` of the snapshot", and the
step that completes a batch leaves every pixel of the grid with it. -/
def Obligations.CompletedBatchShowsThePixelFunction : Prop :=
  ∀ s t : State, Inv s → Painted s → step s = .next t →
    Painted t ∧
    (s.batch ≠ none → t.outcome = some .completed → ∀ px py, px < t.outW → py < t.outH →
      ∃ c, t.pixelAt px py = some c ∧ pixelColor t px py = .ok c)

/-- R146, R147, R169: launched with nothing else waiting, a batch of `w * h` invocations has ended after
`w * h` steps, whatever order they ran in, with the outcome and (when it completed) the image that
`frame` gives as a function of the snapshot. -/
def Obligations.EveryOrderOfABatchGivesTheFrame : Prop :=
  ∀ (s l f : State) (w h : Nat), s.inbox = [] →
    exec (.launch w h) s = .next l → exec (.frame w h) s = .next f →
    ∃ t : State, Sys2Proof.core.run (w * h) l = .next t ∧ t.batch = none ∧
      t.outcome = f.outcome ∧ t.mem = s.mem ∧
      (f.outcome = some .completed → ∀ px py, t.pixelAt px py = f.pixelAt px py)

/-! ### Decoding -/

/-- R51: mode bytes written out from the table, one or more of each family, decode to what they stand
for; `0x83` is not mode 3. -/
def Obligations.SampleModeBytesDecode : Prop :=
  decode [0b00000000#8] = .ok .mode0 ∧ decode [0b00000011#8] = .ok .mode3 ∧
  decode [0b00000101#8] = .ok .mode5 ∧ decode [0b00000110#8] = .ok .mode6 ∧
  decode [0b10000011#8] = .ok (.fallback128 0b0000011#7) ∧
  decode [0b00001000#8] = .ok (.fallback8 0b000#3)

/-- R51, R50: every instruction an encoding selects is read back from its mode byte, with every bit the
row leaves open; an operation without an encoding has no byte. -/
def Obligations.DecodeOfEncode : Prop :=
  ∀ i : Instr, (i.encoded = true → decode (encode i) = .ok i) ∧
    (i.encoded = false → encode i = [])

/-- R51, R60: every byte is the mode byte of exactly one instruction, and has the fixed bits of exactly
one row of the opcode table. -/
def Obligations.EveryByteIsOneModeByte : Prop :=
  ∀ b : Byte, encode (decodeMode b) = [b] ∧ (decodeMode b).encoded = true ∧
    (∀ i : Instr, encode i = [b] → i = decodeMode b) ∧
    (opcodeRows.filter (rowMatches b)).length = 1
end

