-- ==== Sys2Proof/Laws/Memory.lean ====
section
/-! SUPPORT. Sorted association lists, and what they give the memory and the output surface: a read
after a write, every other place unchanged, and the canonical form kept. -/

namespace Sys2Proof.Machine

variable {α : Type}

/-! ### Association lists -/

@[simp] theorem entryAt_nil (a : Nat) : entryAt ([] : List (Nat × α)) a = none := rfl

theorem entryAt_cons (k : Nat) (v : α) (l : List (Nat × α)) (a : Nat) :
    entryAt ((k, v) :: l) a = if a = k then some v else entryAt l a := rfl

theorem entryAt_eq_none_of_forall {l : List (Nat × α)} {a : Nat} (h : ∀ e ∈ l, e.1 ≠ a) :
    entryAt l a = none := by
  induction l with
  | nil => rfl
  | cons e l ih =>
    obtain ⟨k, v⟩ := e
    have hk : k ≠ a := h (k, v) (by simp)
    rw [entryAt_cons, if_neg (Ne.symm hk)]
    exact ih fun e he => h e (by simp [he])

theorem mem_of_entryAt {l : List (Nat × α)} {a : Nat} {v : α} (h : entryAt l a = some v) :
    (a, v) ∈ l := by
  induction l with
  | nil => cases h
  | cons e l ih =>
    obtain ⟨k, w⟩ := e
    rw [entryAt_cons] at h
    split at h
    · next hk => cases h; subst hk; simp
    · exact List.mem_cons_of_mem _ (ih h)

theorem entryAt_setEntry_self (a : Nat) (v : α) (l : List (Nat × α)) :
    entryAt (setEntry a v l) a = some v := by
  induction l with
  | nil => simp [setEntry, entryAt]
  | cons e l ih =>
    obtain ⟨k, w⟩ := e
    by_cases h1 : a < k
    · simp [setEntry, h1, entryAt]
    · by_cases h2 : a = k
      · simp [setEntry, h2, entryAt]
      · simp [setEntry, h1, h2, entryAt, ih]

theorem entryAt_setEntry_other {a b : Nat} (v : α) (l : List (Nat × α)) (h : b ≠ a) :
    entryAt (setEntry a v l) b = entryAt l b := by
  induction l with
  | nil => simp [setEntry, entryAt, h]
  | cons e l ih =>
    obtain ⟨k, w⟩ := e
    by_cases h1 : a < k
    · simp [setEntry, h1, entryAt, h]
    · by_cases h2 : a = k
      · subst h2; simp [setEntry, entryAt, h]
      · by_cases h3 : b = k <;> simp [setEntry, h1, h2, entryAt, h3, ih]

/-- Reading an association list after listing one value. -/
theorem entryAt_setEntry (a b : Nat) (v : α) (l : List (Nat × α)) :
    entryAt (setEntry a v l) b = if b = a then some v else entryAt l b := by
  split
  · next h => subst h; exact entryAt_setEntry_self b v l
  · next h => exact entryAt_setEntry_other v l h

theorem mem_setEntry {a : Nat} {v : α} {l : List (Nat × α)} {e : Nat × α}
    (h : e ∈ setEntry a v l) : e = (a, v) ∨ e ∈ l := by
  induction l with
  | nil => simpa [setEntry] using h
  | cons f l ih =>
    obtain ⟨k, w⟩ := f
    by_cases h1 : a < k
    · simpa [setEntry, h1] using h
    · by_cases h2 : a = k
      · simp only [setEntry, h2, if_true, if_false, lt_irrefl, List.mem_cons] at h ⊢
        tauto
      · simp only [setEntry, h1, h2, if_false, List.mem_cons] at h ⊢
        rcases h with h | h
        · exact .inr (.inl h)
        · rcases ih h with h | h
          · exact .inl h
          · exact .inr (.inr h)

theorem mem_dropEntry {a : Nat} {l : List (Nat × α)} {e : Nat × α} (h : e ∈ dropEntry a l) :
    e ∈ l := by
  induction l with
  | nil => exact h
  | cons f l ih =>
    obtain ⟨k, w⟩ := f
    by_cases h1 : a = k
    · simp only [dropEntry, h1, if_true] at h
      exact List.mem_cons_of_mem _ h
    · simp only [dropEntry, h1, if_false, List.mem_cons] at h ⊢
      exact h.imp_right ih

/-- Listing a value keeps the keys rising. -/
theorem rising_setEntry (a : Nat) (v : α) {l : List (Nat × α)} (h : Rising l) :
    Rising (setEntry a v l) := by
  induction l with
  | nil => simp [setEntry, Rising]
  | cons f l ih =>
    obtain ⟨k, w⟩ := f
    obtain ⟨hk, hl⟩ := List.pairwise_cons.1 h
    by_cases h1 : a < k
    · simp only [setEntry, h1, if_true]
      refine List.pairwise_cons.2 ⟨fun e he => ?_, h⟩
      rcases List.mem_cons.1 he with rfl | he
      · exact h1
      · exact lt_trans h1 (hk e he)
    · by_cases h2 : a = k
      · simp only [setEntry, h2, if_true, lt_irrefl, if_false]
        exact List.pairwise_cons.2 ⟨hk, hl⟩
      · simp only [setEntry, h1, h2, if_false]
        refine List.pairwise_cons.2 ⟨fun e he => ?_, ih hl⟩
        rcases mem_setEntry he with rfl | he
        · show k < a
          omega
        · exact hk e he

/-- Listing nothing keeps the keys rising. -/
theorem rising_dropEntry (a : Nat) {l : List (Nat × α)} (h : Rising l) : Rising (dropEntry a l) := by
  induction l with
  | nil => exact h
  | cons f l ih =>
    obtain ⟨k, w⟩ := f
    obtain ⟨hk, hl⟩ := List.pairwise_cons.1 h
    by_cases h1 : a = k
    · simpa only [dropEntry, h1, if_true] using hl
    · simp only [dropEntry, h1, if_false]
      exact List.pairwise_cons.2 ⟨fun e he => hk e (mem_dropEntry he), ih hl⟩

/-- Reading a rising list after listing nothing for one key. -/
theorem entryAt_dropEntry (a b : Nat) {l : List (Nat × α)} (h : Rising l) :
    entryAt (dropEntry a l) b = if b = a then none else entryAt l b := by
  induction l with
  | nil => simp [dropEntry]
  | cons f l ih =>
    obtain ⟨k, w⟩ := f
    obtain ⟨hk, hl⟩ := List.pairwise_cons.1 h
    by_cases h1 : a = k
    · subst h1
      simp only [dropEntry, if_true]
      by_cases h2 : b = a
      · rw [if_pos h2, h2]
        exact entryAt_eq_none_of_forall fun e he => (ne_of_lt (hk e he)).symm
      · rw [if_neg h2, entryAt_cons, if_neg h2]
    · simp only [dropEntry, h1, if_false, entryAt_cons]
      by_cases h2 : b = k
      · simp [h2, Ne.symm h1]
      · simp [h2, ih hl]

/-! ### The memory -/

@[simp] theorem write_words (m : Memory) (a : Nat) (b : Byte) : (m.write a b).words = m.words := rfl

@[simp] theorem write_size (m : Memory) (a : Nat) (b : Byte) : (m.write a b).size = m.size := rfl

/-- Reading one byte after the writer's store of one byte. -/
theorem byteAt_write {m : Memory} (h : m.wf) (a c : Nat) (b : Byte) :
    (m.write a b).byteAt c = if c = a then b else m.byteAt c := by
  by_cases hb : b = unlistedByte
  · simp only [Memory.byteAt, Memory.write, if_pos hb, entryAt_dropEntry a c h.1]
    split
    · exact hb.symm
    · rfl
  · simp only [Memory.byteAt, Memory.write, if_neg hb, entryAt_setEntry]
    split <;> rfl

/-- The writer's store of a byte that exists keeps the canonical form. -/
theorem write_wf {m : Memory} (h : m.wf) {a : Nat} (b : Byte) (ha : a < m.size) :
    (m.write a b).wf := by
  obtain ⟨hr, hc, hw⟩ := h
  by_cases hb : b = unlistedByte
  · refine ⟨?_, ?_, hw⟩
    · simpa only [Memory.write, if_pos hb] using rising_dropEntry a hr
    · intro c hcm
      simp only [Memory.write, if_pos hb] at hcm
      exact hc c (mem_dropEntry hcm)
  · refine ⟨?_, ?_, hw⟩
    · simpa only [Memory.write, if_neg hb] using rising_setEntry a b hr
    · intro c hcm
      simp only [Memory.write, if_neg hb] at hcm
      rcases mem_setEntry hcm with rfl | hcm
      · exact ⟨ha, hb⟩
      · exact hc c hcm

/-- Reset's memory has the canonical form. -/
theorem reset_mem_wf : State.reset.mem.wf := by
  refine ⟨List.Pairwise.nil, ?_, by decide⟩
  intro c hc
  cases hc

/-! ### Words and lanes -/

/-- The lanes of four bytes joined into a word, bit by bit (R31). -/
theorem lane_append (b3 b2 b1 b0 : Byte) {k i : Nat} (hi : i < 8) (hk : k < 4) :
    (lane (b3 ++ b2 ++ b1 ++ b0 : BitVec (8 + 8 + 8 + 8)) k).getLsbD i =
      (if k = 0 then b0 else if k = 1 then b1 else if k = 2 then b2 else b3).getLsbD i := by
  unfold lane
  rw [BitVec.getLsbD_setWidth, BitVec.getLsbD_ushiftRight, BitVec.getLsbD_append (n := 24) (m := 8),
    BitVec.getLsbD_append (n := 16) (m := 8), BitVec.getLsbD_append (n := 8) (m := 8)]
  interval_cases k
  · simp [hi]
  · have h1 : ¬ 8 + i < 8 := by omega
    simp [hi]
  · have h1 : ¬ 16 + i < 8 := by omega
    have h2 : 16 + i - 8 = 8 + i := by omega
    simp [hi, h1, h2]
  · have h1 : ¬ 24 + i < 8 := by omega
    have h2 : 24 + i - 8 = 16 + i := by omega
    have h3 : 16 + i - 8 = 8 + i := by omega
    have h4 : ¬ 16 + i < 8 := by omega
    simp [hi, h1, h2, h3, h4]

/-- R31: the byte at `a` is lane `a mod 4` of the word `a div 4`. -/
theorem lane_word (m : Memory) (a : Nat) : lane (m.word (a / 4)) (a % 4) = m.byteAt a := by
  have hlt : a % 4 < 4 := Nat.mod_lt _ (by decide)
  have ha : a = 4 * (a / 4) + a % 4 := (Nat.div_add_mod a 4).symm
  apply BitVec.eq_of_getLsbD_eq
  intro i hi
  refine (lane_append _ _ _ _ hi hlt).trans ?_
  generalize a / 4 = q at *
  generalize a % 4 = k at *
  subst ha
  interval_cases k <;> rfl

/-! ### The output surface -/

@[simp] theorem blankSurface_pixels (e : Nat) : (blankSurface e).pixels = [] := rfl

@[simp] theorem blankSurface_epoch (e : Nat) : (blankSurface e).epoch = e := rfl

/-- Reading the surface after one pixel was written. -/
theorem colorAt_setPixel (s : State) (px py i : Nat) (c : Color) :
    (s.setPixel px py c).out.colorAt i =
      if i = pixelIndex s.outW px py then c else s.out.colorAt i := by
  simp only [Surface.colorAt, State.setPixel, entryAt_setEntry]
  split <;> rfl

/-- Two pixels of a grid with the same number are the same pixel. -/
theorem pixelIndex_inj {w x y x' y' : Nat} (hx : x < w) (hx' : x' < w)
    (h : pixelIndex w x y = pixelIndex w x' y') : x = x' ∧ y = y' := by
  unfold pixelIndex at h
  have hw : 0 < w := by omega
  have hy : y = y' := by
    have h1 : (y * w + x) / w = y := by
      rw [Nat.mul_comm, Nat.mul_add_div hw, Nat.div_eq_of_lt hx, Nat.add_zero]
    have h2 : (y' * w + x') / w = y' := by
      rw [Nat.mul_comm, Nat.mul_add_div hw, Nat.div_eq_of_lt hx', Nat.add_zero]
    rw [← h1, ← h2, h]
  subst hy
  exact ⟨by omega, rfl⟩

/-- The coordinates of a grid (R146). -/
@[simp] theorem mem_gridPixels {w h : Nat} {p : Nat × Nat} :
    p ∈ gridPixels w h ↔ p.1 < w ∧ p.2 < h := by
  obtain ⟨x, y⟩ := p
  simp only [gridPixels, List.mem_flatMap, List.mem_range, List.mem_map, Prod.mk.injEq]
  constructor
  · rintro ⟨y', hy', x', hx', rfl, rfl⟩
    exact ⟨hx', hy'⟩
  · rintro ⟨hx, hy⟩
    exact ⟨y, hy, x, hx, rfl, rfl⟩

/-- A grid has each coordinate once (R146). -/
theorem gridPixels_nodup (w h : Nat) : (gridPixels w h).Nodup := by
  unfold gridPixels
  rw [List.nodup_flatMap]
  refine ⟨fun y _ => List.Nodup.map (fun a b hab => by simpa using hab) List.nodup_range, ?_⟩
  refine List.Pairwise.imp ?_ (List.nodup_range (n := h))
  intro a b hab p hp hq
  obtain ⟨x, y⟩ := p
  simp only [List.mem_map, Prod.mk.injEq] at hp hq
  obtain ⟨-, -, -, rfl⟩ := hp
  obtain ⟨-, -, -, rfl⟩ := hq
  exact hab rfl

end Sys2Proof.Machine
end

