-- ==== Sys2Proof/Laws/State.lean ====
section
/-! SUPPORT. One lemma per field per update of the state, so that no proof unfolds a record update. -/

namespace Sys2Proof.Machine

/-! ### `withResult` -/

@[simp] theorem withResult_mem (s : State) (v : Result) : (s.withResult v).mem = s.mem := rfl

@[simp] theorem withResult_params (s : State) (v : Result) :
    (s.withResult v).params = s.params := rfl

@[simp] theorem withResult_outW (s : State) (v : Result) : (s.withResult v).outW = s.outW := rfl

@[simp] theorem withResult_outH (s : State) (v : Result) : (s.withResult v).outH = s.outH := rfl

@[simp] theorem withResult_out (s : State) (v : Result) : (s.withResult v).out = s.out := rfl

@[simp] theorem withResult_batch (s : State) (v : Result) : (s.withResult v).batch = s.batch := rfl

@[simp] theorem withResult_outcome (s : State) (v : Result) :
    (s.withResult v).outcome = s.outcome := rfl

@[simp] theorem withResult_px (s : State) (v : Result) : (s.withResult v).px = s.px := rfl

@[simp] theorem withResult_py (s : State) (v : Result) : (s.withResult v).py = s.py := rfl

@[simp] theorem withResult_result (s : State) (v : Result) : (s.withResult v).result = v := rfl

@[simp] theorem withResult_oob (s : State) (v : Result) : (s.withResult v).oob = none := rfl

@[simp] theorem withResult_inbox (s : State) (v : Result) : (s.withResult v).inbox = s.inbox := rfl

@[simp] theorem withResult_free (s : State) (v : Result) : (s.withResult v).free = s.free := rfl

/-! ### `setPixel` -/

@[simp] theorem setPixel_mem (s : State) (px py : Nat) (c : Color) :
    (s.setPixel px py c).mem = s.mem := rfl

@[simp] theorem setPixel_params (s : State) (px py : Nat) (c : Color) :
    (s.setPixel px py c).params = s.params := rfl

@[simp] theorem setPixel_outW (s : State) (px py : Nat) (c : Color) :
    (s.setPixel px py c).outW = s.outW := rfl

@[simp] theorem setPixel_outH (s : State) (px py : Nat) (c : Color) :
    (s.setPixel px py c).outH = s.outH := rfl

@[simp] theorem setPixel_out (s : State) (px py : Nat) (c : Color) :
    (s.setPixel px py c).out = { s.out with pixels := setEntry (pixelIndex s.outW px py) c s.out.pixels } := rfl

@[simp] theorem setPixel_batch (s : State) (px py : Nat) (c : Color) :
    (s.setPixel px py c).batch = s.batch := rfl

@[simp] theorem setPixel_outcome (s : State) (px py : Nat) (c : Color) :
    (s.setPixel px py c).outcome = s.outcome := rfl

@[simp] theorem setPixel_px (s : State) (px py : Nat) (c : Color) :
    (s.setPixel px py c).px = s.px := rfl

@[simp] theorem setPixel_py (s : State) (px py : Nat) (c : Color) :
    (s.setPixel px py c).py = s.py := rfl

@[simp] theorem setPixel_result (s : State) (px py : Nat) (c : Color) :
    (s.setPixel px py c).result = s.result := rfl

@[simp] theorem setPixel_oob (s : State) (px py : Nat) (c : Color) :
    (s.setPixel px py c).oob = s.oob := rfl

@[simp] theorem setPixel_inbox (s : State) (px py : Nat) (c : Color) :
    (s.setPixel px py c).inbox = s.inbox := rfl

@[simp] theorem setPixel_free (s : State) (px py : Nat) (c : Color) :
    (s.setPixel px py c).free = s.free := rfl

/-! ### `issue` -/

@[simp] theorem issue_mem (p : Nat × Nat) (b : Batch) (s : State) : (issue p b s).mem = s.mem := rfl

@[simp] theorem issue_params (p : Nat × Nat) (b : Batch) (s : State) :
    (issue p b s).params = s.params := rfl

@[simp] theorem issue_outW (p : Nat × Nat) (b : Batch) (s : State) :
    (issue p b s).outW = s.outW := rfl

@[simp] theorem issue_outH (p : Nat × Nat) (b : Batch) (s : State) :
    (issue p b s).outH = s.outH := rfl

@[simp] theorem issue_out (p : Nat × Nat) (b : Batch) (s : State) : (issue p b s).out = s.out := rfl

@[simp] theorem issue_batch (p : Nat × Nat) (b : Batch) (s : State) :
    (issue p b s).batch = some { pending := b.pending.erase p } := rfl

@[simp] theorem issue_outcome (p : Nat × Nat) (b : Batch) (s : State) :
    (issue p b s).outcome = s.outcome := rfl

@[simp] theorem issue_px (p : Nat × Nat) (b : Batch) (s : State) : (issue p b s).px = p.1 := rfl

@[simp] theorem issue_py (p : Nat × Nat) (b : Batch) (s : State) : (issue p b s).py = p.2 := rfl

@[simp] theorem issue_result (p : Nat × Nat) (b : Batch) (s : State) :
    (issue p b s).result = s.result := rfl

@[simp] theorem issue_oob (p : Nat × Nat) (b : Batch) (s : State) : (issue p b s).oob = s.oob := rfl

@[simp] theorem issue_inbox (p : Nat × Nat) (b : Batch) (s : State) :
    (issue p b s).inbox = s.inbox := rfl

@[simp] theorem issue_free (p : Nat × Nat) (b : Batch) (s : State) :
    (issue p b s).free = s.free + 1 := rfl

/-! ### `endWithoutFrame` -/

@[simp] theorem endWithoutFrame_mem (o : BatchOutcome) (s : State) :
    (endWithoutFrame o s).mem = s.mem := rfl

@[simp] theorem endWithoutFrame_params (o : BatchOutcome) (s : State) :
    (endWithoutFrame o s).params = s.params := rfl

@[simp] theorem endWithoutFrame_outW (o : BatchOutcome) (s : State) :
    (endWithoutFrame o s).outW = s.outW := rfl

@[simp] theorem endWithoutFrame_outH (o : BatchOutcome) (s : State) :
    (endWithoutFrame o s).outH = s.outH := rfl

@[simp] theorem endWithoutFrame_out (o : BatchOutcome) (s : State) :
    (endWithoutFrame o s).out = blankSurface s.free := rfl

@[simp] theorem endWithoutFrame_batch (o : BatchOutcome) (s : State) :
    (endWithoutFrame o s).batch = none := rfl

@[simp] theorem endWithoutFrame_outcome (o : BatchOutcome) (s : State) :
    (endWithoutFrame o s).outcome = some o := rfl

@[simp] theorem endWithoutFrame_px (o : BatchOutcome) (s : State) :
    (endWithoutFrame o s).px = s.px := rfl

@[simp] theorem endWithoutFrame_py (o : BatchOutcome) (s : State) :
    (endWithoutFrame o s).py = s.py := rfl

@[simp] theorem endWithoutFrame_result (o : BatchOutcome) (s : State) :
    (endWithoutFrame o s).result = s.result := rfl

@[simp] theorem endWithoutFrame_oob (o : BatchOutcome) (s : State) :
    (endWithoutFrame o s).oob = s.oob := rfl

@[simp] theorem endWithoutFrame_inbox (o : BatchOutcome) (s : State) :
    (endWithoutFrame o s).inbox = s.inbox := rfl

@[simp] theorem endWithoutFrame_free (o : BatchOutcome) (s : State) :
    (endWithoutFrame o s).free = s.free + 1 := rfl

/-! ### `startBatch` -/

@[simp] theorem startBatch_mem (w h : Nat) (s : State) : (startBatch w h s).mem = s.mem := rfl

@[simp] theorem startBatch_params (w h : Nat) (s : State) :
    (startBatch w h s).params = s.params := rfl

@[simp] theorem startBatch_outW (w h : Nat) (s : State) : (startBatch w h s).outW = w := rfl

@[simp] theorem startBatch_outH (w h : Nat) (s : State) : (startBatch w h s).outH = h := rfl

@[simp] theorem startBatch_out (w h : Nat) (s : State) :
    (startBatch w h s).out = blankSurface s.free := rfl

@[simp] theorem startBatch_batch (w h : Nat) (s : State) :
    (startBatch w h s).batch = some { pending := gridPixels w h } := rfl

@[simp] theorem startBatch_outcome (w h : Nat) (s : State) :
    (startBatch w h s).outcome = none := rfl

@[simp] theorem startBatch_px (w h : Nat) (s : State) : (startBatch w h s).px = 0 := rfl

@[simp] theorem startBatch_py (w h : Nat) (s : State) : (startBatch w h s).py = 0 := rfl

@[simp] theorem startBatch_result (w h : Nat) (s : State) :
    (startBatch w h s).result = .none := rfl

@[simp] theorem startBatch_oob (w h : Nat) (s : State) : (startBatch w h s).oob = none := rfl

@[simp] theorem startBatch_inbox (w h : Nat) (s : State) : (startBatch w h s).inbox = s.inbox := rfl

@[simp] theorem startBatch_free (w h : Nat) (s : State) :
    (startBatch w h s).free = s.free + 1 := rfl

/-! ### `completeBatch` -/

@[simp] theorem completeBatch_mem (s : State) : (completeBatch s).mem = s.mem := rfl

@[simp] theorem completeBatch_params (s : State) : (completeBatch s).params = s.params := rfl

@[simp] theorem completeBatch_outW (s : State) : (completeBatch s).outW = s.outW := rfl

@[simp] theorem completeBatch_outH (s : State) : (completeBatch s).outH = s.outH := rfl

@[simp] theorem completeBatch_out (s : State) : (completeBatch s).out = s.out := rfl

@[simp] theorem completeBatch_batch (s : State) : (completeBatch s).batch = none := rfl

@[simp] theorem completeBatch_outcome (s : State) :
    (completeBatch s).outcome = some .completed := rfl

@[simp] theorem completeBatch_px (s : State) : (completeBatch s).px = s.px := rfl

@[simp] theorem completeBatch_py (s : State) : (completeBatch s).py = s.py := rfl

@[simp] theorem completeBatch_result (s : State) : (completeBatch s).result = s.result := rfl

@[simp] theorem completeBatch_oob (s : State) : (completeBatch s).oob = s.oob := rfl

@[simp] theorem completeBatch_inbox (s : State) : (completeBatch s).inbox = s.inbox := rfl

@[simp] theorem completeBatch_free (s : State) : (completeBatch s).free = s.free := rfl

/-! ### `showLast` -/

@[simp] theorem showLast_mem (p : Nat × Nat) (s : State) : (showLast p s).mem = s.mem := rfl

@[simp] theorem showLast_params (p : Nat × Nat) (s : State) : (showLast p s).params = s.params := rfl

@[simp] theorem showLast_outW (p : Nat × Nat) (s : State) : (showLast p s).outW = s.outW := rfl

@[simp] theorem showLast_outH (p : Nat × Nat) (s : State) : (showLast p s).outH = s.outH := rfl

@[simp] theorem showLast_out (p : Nat × Nat) (s : State) : (showLast p s).out = s.out := rfl

@[simp] theorem showLast_batch (p : Nat × Nat) (s : State) : (showLast p s).batch = s.batch := rfl

@[simp] theorem showLast_outcome (p : Nat × Nat) (s : State) : (showLast p s).outcome = s.outcome := rfl

@[simp] theorem showLast_px (p : Nat × Nat) (s : State) : (showLast p s).px = p.1 := rfl

@[simp] theorem showLast_py (p : Nat × Nat) (s : State) : (showLast p s).py = p.2 := rfl

@[simp] theorem showLast_oob (p : Nat × Nat) (s : State) : (showLast p s).oob = none := rfl

@[simp] theorem showLast_inbox (p : Nat × Nat) (s : State) : (showLast p s).inbox = s.inbox := rfl

@[simp] theorem showLast_free (p : Nat × Nat) (s : State) : (showLast p s).free = s.free + 1 := rfl

/-! ### Taking the exception -/

/-- Everything taking an exception can do (R140, R148): without a batch only the ports change; a batch in
flight fails. -/
theorem takeException_cases (e : Exception) (s : State) :
    (∃ a, e = .outOfBounds a ∧ s.batch = none ∧
      takeException e s = { s with result := Result.none, oob := some a }) ∨
    ∃ a b, e = .outOfBounds a ∧ s.batch = some b ∧
      takeException e s =
        endWithoutFrame .failed { s with result := Result.none, oob := some a } := by
  obtain ⟨a⟩ := e
  cases h : s.batch with
  | none => exact .inl ⟨a, rfl, rfl, by simp [takeException, h]⟩
  | some b => exact .inr ⟨a, b, rfl, rfl, by simp [takeException, h]⟩

@[simp] theorem takeException_mem (e : Exception) (s : State) :
    (takeException e s).mem = s.mem := by
  obtain ⟨a, -, -, h⟩ | ⟨a, b, -, -, h⟩ := takeException_cases e s <;> simp [h]

@[simp] theorem takeException_params (e : Exception) (s : State) :
    (takeException e s).params = s.params := by
  obtain ⟨a, -, -, h⟩ | ⟨a, b, -, -, h⟩ := takeException_cases e s <;> simp [h]

@[simp] theorem takeException_outW (e : Exception) (s : State) :
    (takeException e s).outW = s.outW := by
  obtain ⟨a, -, -, h⟩ | ⟨a, b, -, -, h⟩ := takeException_cases e s <;> simp [h]

@[simp] theorem takeException_outH (e : Exception) (s : State) :
    (takeException e s).outH = s.outH := by
  obtain ⟨a, -, -, h⟩ | ⟨a, b, -, -, h⟩ := takeException_cases e s <;> simp [h]

@[simp] theorem takeException_px (e : Exception) (s : State) :
    (takeException e s).px = s.px := by
  obtain ⟨a, -, -, h⟩ | ⟨a, b, -, -, h⟩ := takeException_cases e s <;> simp [h]

@[simp] theorem takeException_py (e : Exception) (s : State) :
    (takeException e s).py = s.py := by
  obtain ⟨a, -, -, h⟩ | ⟨a, b, -, -, h⟩ := takeException_cases e s <;> simp [h]

@[simp] theorem takeException_inbox (e : Exception) (s : State) :
    (takeException e s).inbox = s.inbox := by
  obtain ⟨a, -, -, h⟩ | ⟨a, b, -, -, h⟩ := takeException_cases e s <;> simp [h]

@[simp] theorem takeException_result (e : Exception) (s : State) :
    (takeException e s).result = .none := by
  obtain ⟨a, -, -, h⟩ | ⟨a, b, -, -, h⟩ := takeException_cases e s <;> simp [h]

@[simp] theorem takeException_oob (a : Nat) (s : State) :
    (takeException (.outOfBounds a) s).oob = some a := by
  obtain ⟨a', he, -, h⟩ | ⟨a', b, he, -, h⟩ := takeException_cases (.outOfBounds a) s <;>
    rw [h] <;> cases he <;> rfl

/-- After an exception no batch is in flight. -/
@[simp] theorem takeException_batch (e : Exception) (s : State) :
    (takeException e s).batch = none := by
  obtain ⟨a, -, hb, h⟩ | ⟨a, b, -, -, h⟩ := takeException_cases e s <;> rw [h]
  · exact hb
  · rfl

/-- An exception raised during a batch fails it. -/
theorem takeException_outcome_of_batch {s : State} {b : Batch} (e : Exception)
    (hb : s.batch = some b) : (takeException e s).outcome = some .failed := by
  obtain ⟨a, -, h0, h⟩ | ⟨a, b', -, -, h⟩ := takeException_cases e s
  · simp [hb] at h0
  · rw [h]; rfl

end Sys2Proof.Machine
end

