-- ==== Sys2Proof/Laws/Exec.lean ====
section
/-! SUPPORT. What the shared operations around a routine can do, each said once: delivering a value, one
invocation, its retirement, the choice of the next one, and a whole list of them. -/

namespace Sys2Proof.Machine

/-! ### Delivering -/

/-- Everything `deliver` can answer. -/
theorem deliver_cases {r : Access Result} {s t : State} (h : deliver r s = .next t) :
    (∃ v, r = .ok v ∧ t = s.withResult v) ∨ ∃ e, r = .error e ∧ t = takeException e s := by
  cases r with
  | ok v => exact .inl ⟨v, rfl, by cases h; rfl⟩
  | error e => exact .inr ⟨e, rfl, by cases h; rfl⟩

@[simp] theorem deliver_ok (v : Result) (s : State) : deliver (.ok v) s = .next (s.withResult v) := rfl

@[simp] theorem deliver_error (e : Exception) (s : State) :
    deliver (.error e) s = .next (takeException e s) := rfl

/-! ### Routines -/

/-- The routine a mode byte encodes, run at the current coordinate, is the selection of R104 on the
registers in memory. -/
theorem exec_decodeMode (mode : Byte) (s : State) :
    exec (decodeMode mode) s =
      if mode.toNat < 8 then
        deliver ((withRegisters s fun regs =>
          dispatchColor s.params s.mem s.lgOrigin mode s.px s.py regs).map Result.color) s
      else .next (s.withResult (.color Config.fallbackColor)) := by
  by_cases h0 : mode = 0#8
  · subst h0; rfl
  by_cases h1 : mode = 1#8
  · subst h1; rfl
  by_cases h2 : mode = 2#8
  · subst h2; rfl
  by_cases h3 : mode = 3#8
  · subst h3; rfl
  by_cases h4 : mode = 4#8
  · subst h4; rfl
  by_cases h5 : mode = 5#8
  · subst h5; rfl
  by_cases h6 : mode = 6#8
  · subst h6; rfl
  by_cases h7 : mode = 7#8
  · subst h7; rfl
  have hge : ¬ mode.toNat < 8 := by
    intro hlt
    have : mode = BitVec.ofNat 8 mode.toNat := by simp
    generalize mode.toNat = n at *
    interval_cases n <;> simp_all
  rw [if_neg hge]
  simp only [decodeMode, h0, h1, h2, h3, h4, h5, h6, h7, if_false]
  split
  · rfl
  split
  · rfl
  split
  · rfl
  split <;> rfl

/-- R105: every mode from 8 on selects FALLBACK. -/
theorem dispatchColor_fallback {P : Params} {m : Memory} {o : Int × Int} {mode : Byte} {px py : Nat}
    {regs : RegisterBlock} (h : ¬ mode.toNat < 8) :
    dispatchColor P m o mode px py regs = .ok Config.fallbackColor := by
  unfold dispatchColor
  iterate 8 rw [if_neg (by rintro rfl; exact h (by decide))]
  rfl

/-! ### One invocation -/

/-- `pixelColor` once the registers are parsed (R103). -/
theorem pixelColor_of_parse {s : State} {mode : Byte} {regs : RegisterBlock} {px py : Nat}
    (h : readDisplayRegisters s.params s.mem = .ok (mode, regs)) :
    pixelColor s px py = dispatchColor s.params s.mem s.lgOrigin mode px py regs := by
  unfold pixelColor
  rw [h]
  rfl

/-- `pixelColor` when the parse raises (R80, R103). -/
theorem pixelColor_of_parse_error {s : State} {e : Exception} {px py : Nat}
    (h : readDisplayRegisters s.params s.mem = .error e) : pixelColor s px py = .error e := by
  unfold pixelColor
  rw [h]
  rfl

/-- `pixelColor` is a function of the parameters, the memory and the grid (R107). -/
theorem pixelColor_congr {s t : State} (hp : t.params = s.params) (hm : t.mem = s.mem)
    (hw : t.outW = s.outW) (hh : t.outH = s.outH) (px py : Nat) :
    pixelColor t px py = pixelColor s px py := by
  unfold pixelColor State.lgOrigin
  rw [hp, hm, hw, hh]

/-- After an exception nothing is left to retire (R148). -/
@[simp] theorem retire_takeException (e : Exception) (s : State) :
    retire (takeException e s) = takeException e s := by
  unfold retire
  rw [takeException_batch]

/-- One invocation is the colour of its pixel, or the exception (R103). -/
theorem runInvocation_eq (s : State) :
    runInvocation s =
      match pixelColor s s.px s.py with
      | .ok c => .next (retire (s.withResult (.color c)))
      | .error e => .next (takeException e s) := by
  unfold runInvocation
  cases h : readDisplayRegisters s.params s.mem with
  | error e => simp only [pixelColor_of_parse_error h]
  | ok r =>
    obtain ⟨mode, regs⟩ := r
    simp only [pixelColor_of_parse h, exec_decodeMode]
    by_cases hm : mode.toNat < 8
    · simp only [if_pos hm]
      have hw : withRegisters s (fun regs =>
          dispatchColor s.params s.mem s.lgOrigin mode s.px s.py regs) =
          dispatchColor s.params s.mem s.lgOrigin mode s.px s.py regs := by
        unfold withRegisters
        rw [h]
        rfl
      rw [hw]
      cases dispatchColor s.params s.mem s.lgOrigin mode s.px s.py regs with
      | ok c => rfl
      | error e =>
        show Host.Outcome.next (retire (takeException e s)) = _
        rw [retire_takeException]
    · simp only [if_neg hm, dispatchColor_fallback hm]

/-- Retiring a colour during a batch: the pixel is written, and the batch completes with its last
invocation (R147). -/
theorem retire_color {s : State} {b : Batch} (c : Color) (hb : s.batch = some b) :
    retire (s.withResult (.color c)) =
      if b.pending.isEmpty then completeBatch ((s.withResult (.color c)).setPixel s.px s.py c)
      else (s.withResult (.color c)).setPixel s.px s.py c := by
  unfold retire
  simp only [withResult_batch, withResult_result, hb]
  rfl

/-- What `pixel` does where its coordinate is current (R103). -/
theorem runPixel_eq (s : State) (px py : Nat) :
    runPixel px py s =
      match pixelColor s px py with
      | .ok c => ({ s with px := px, py := py }.withResult (.color c)).setPixel px py c
      | .error e => takeException e { s with px := px, py := py } := rfl

/-- A coordinate is on the grid when it is below both dimensions (R13). -/
theorem onGrid_iff {s : State} {px py : Nat} :
    s.onGrid px py = true ↔ px < s.outW ∧ py < s.outH := by
  simp [State.onGrid]

/-! ### The next invocation -/

/-- The invocation that runs next is a pending one (R146). -/
theorem nextPixel_mem {k : Nat} {l : List (Nat × Nat)} {p : Nat × Nat} (h : nextPixel k l = some p) :
    p ∈ l := by
  match l, h with
  | [q], h => cases h; simp
  | q :: r :: rest, h =>
    simp only [nextPixel, Option.some.injEq] at h
    subst h
    have hlt : Config.invocationOrder k % (q :: r :: rest).length < (q :: r :: rest).length :=
      Nat.mod_lt _ (by simp)
    rw [List.getD_eq_getElem _ _ hlt]
    exact List.getElem_mem hlt

/-- There is a next invocation exactly when one is pending. -/
theorem nextPixel_isSome {k : Nat} {l : List (Nat × Nat)} (h : l ≠ []) :
    ∃ p, nextPixel k l = some p := by
  match l with
  | [] => exact absurd rfl h
  | [q] => exact ⟨q, rfl⟩
  | q :: r :: rest => exact ⟨_, rfl⟩

/-- Everything a step of a batch can do while the host does not abandon it (R146, R147, R148). -/
theorem invoke_cases (b : Batch) (s : State) :
    (b.pending = [] ∧ invoke b s = .next (completeBatch s)) ∨
    ∃ p, p ∈ b.pending ∧ nextPixel s.free b.pending = some p ∧
      ((∃ c, pixelColor s p.1 p.2 = .ok c ∧
        invoke b s = .next (retire ((issue p b s).withResult (.color c)))) ∨
      ∃ e, pixelColor s p.1 p.2 = .error e ∧ invoke b s = .next (takeException e (issue p b s))) := by
  unfold invoke
  cases h : nextPixel s.free b.pending with
  | none =>
    refine .inl ⟨?_, rfl⟩
    by_contra hne
    obtain ⟨p, hp⟩ := nextPixel_isSome (k := s.free) hne
    rw [h] at hp
    cases hp
  | some p =>
    refine .inr ⟨p, nextPixel_mem h, rfl, ?_⟩
    simp only [runInvocation_eq]
    rw [show pixelColor (issue p b s) (issue p b s).px (issue p b s).py = pixelColor s p.1 p.2 from
      pixelColor_congr rfl rfl rfl rfl _ _]
    cases hc : pixelColor s p.1 p.2 with
    | ok c => exact .inl ⟨c, rfl, rfl⟩
    | error e => exact .inr ⟨e, rfl, rfl⟩

/-- Everything a step of the machine can do (R44, R146, R149, R150, R160). -/
theorem step_cases {s t : State} (h : step s = .next t) :
    (∃ b rest, s.batch = some b ∧ s.inbox = .abandon :: rest ∧
      t = endWithoutFrame .abandoned { s with inbox := rest }) ∨
    (∃ b, s.batch = some b ∧ invoke b s = .next t) ∨
    (s.batch = none ∧ s.inbox = [] ∧ t = s) ∨
    (∃ a v rest, s.batch = none ∧ s.inbox = .store a v :: rest ∧ a < s.mem.size ∧
      t = { s with mem := s.mem.write a v, inbox := rest }) ∨
    ∃ w h rest, s.batch = none ∧ s.inbox = .launch w h :: rest ∧ gridLegal w h = true ∧
      t = startBatch w h { s with inbox := rest } := by
  unfold step at h
  cases hb : s.batch with
  | some b =>
    rw [hb] at h
    simp only [stepBatch] at h
    split at h
    · next rest hi =>
      simp only [exec, execAbandon, hb, Option.isSome_some, if_true] at h
      cases h
      exact .inl ⟨b, rest, rfl, hi, rfl⟩
    · exact .inr (.inl ⟨b, rfl, h⟩)
  | none =>
    rw [hb] at h
    simp only [stepIdle] at h
    split at h
    · next hi => cases h; exact .inr (.inr (.inl ⟨rfl, hi, rfl⟩))
    · next i rest hi =>
      cases i with
      | store a v =>
        simp only [deliverInput] at h
        split at h
        · next ha =>
          cases h
          exact .inr (.inr (.inr (.inl ⟨a, v, rest, rfl, hi, by simpa [inBounds] using ha, by rw [hb]⟩)))
        · cases h
      | launch w k =>
        simp only [deliverInput, exec, execLaunch, hb, Option.isSome_none, Bool.false_eq_true,
          if_false] at h
        split at h
        · next hg =>
          cases h
          exact .inr (.inr (.inr (.inr ⟨w, k, rest, rfl, hi, hg, rfl⟩)))
        · cases h
      | abandon =>
        simp [deliverInput, exec, execAbandon, hb] at h

/-! ### A whole frame -/

theorem raises_iff {s : State} {p : Nat × Nat} :
    raises s p = true ↔ ∃ e, pixelColor s p.1 p.2 = .error e := by
  unfold raises
  cases pixelColor s p.1 p.2 <;> simp

/-- The address of the exception an invocation raises (R140). -/
theorem raisedAddress_of_error {s : State} {p : Nat × Nat} {a : Nat}
    (h : pixelColor s p.1 p.2 = .error (.outOfBounds a)) : raisedAddress s p = a := by
  unfold raisedAddress
  rw [h]

/-- Painting changes nothing but the pixels of the surface. -/
theorem paintPixels_eq (l : List (Nat × Nat)) (s : State) :
    ∃ pixels, paintPixels l s = { s with out := { s.out with pixels := pixels } } := by
  induction l generalizing s with
  | nil => exact ⟨s.out.pixels, rfl⟩
  | cons p l ih =>
    simp only [paintPixels]
    split
    · next c _ =>
      obtain ⟨pixels, h⟩ := ih (s.setPixel p.1 p.2 c)
      exact ⟨pixels, by rw [h]; rfl⟩
    · exact ih s

/-- What painting a list of coordinates of the grid, none of which raises, leaves in a pixel (R147). -/
theorem paintPixels_colorAt {l : List (Nat × Nat)} {s : State}
    (h : ∀ p ∈ l, ∃ c, pixelColor s p.1 p.2 = .ok c) (hg : ∀ p ∈ l, s.onGrid p.1 p.2 = true)
    {x y : Nat} (hxy : s.onGrid x y = true) :
    ((x, y) ∈ l → pixelColor s x y =
      .ok ((paintPixels l s).out.colorAt (pixelIndex s.outW x y))) ∧
    ((x, y) ∉ l → (paintPixels l s).out.colorAt (pixelIndex s.outW x y) =
      s.out.colorAt (pixelIndex s.outW x y)) := by
  induction l generalizing s with
  | nil => exact ⟨by simp, fun _ => rfl⟩
  | cons p l ih =>
    obtain ⟨c, hc⟩ := h p (by simp)
    have hr : paintPixels (p :: l) s = paintPixels l (s.setPixel p.1 p.2 c) := by
      simp only [paintPixels, hc]
    have hcol : ∀ x y, pixelColor (s.setPixel p.1 p.2 c) x y = pixelColor s x y :=
      fun x y => pixelColor_congr rfl rfl rfl rfl x y
    obtain ⟨hin, hout⟩ := ih (s := s.setPixel p.1 p.2 c)
      (fun q hq => by rw [hcol]; exact h q (List.mem_cons_of_mem _ hq))
      (fun q hq => hg q (List.mem_cons_of_mem _ hq)) hxy
    rw [hcol, setPixel_outW] at hin
    rw [setPixel_outW] at hout
    rw [hr]
    refine ⟨fun hm => ?_, fun hm => ?_⟩
    · by_cases hl : (x, y) ∈ l
      · exact hin hl
      · have he : (x, y) = p := by simpa [hl] using hm
        subst he
        rw [hout hl, colorAt_setPixel, if_pos rfl]
        exact hc
    · simp only [List.mem_cons, not_or] at hm
      rw [hout hm.2, colorAt_setPixel, if_neg]
      intro hix
      obtain ⟨a, b⟩ := pixelIndex_inj (onGrid_iff.1 hxy).1 (onGrid_iff.1 (hg p (by simp))).1 hix
      exact hm.1 (by ext <;> simp [a, b])

/-- Everything a frame can do (R146 to R148): one of the exceptions of its invocations is taken, or all of
them give their colour and it completes. -/
theorem runFrame_cases (l : List (Nat × Nat)) (s : State) :
    (∃ p ∈ l, ∃ a, pixelColor s p.1 p.2 = .error (.outOfBounds a) ∧
      runFrame l s =
        takeException (.outOfBounds a) { s with px := p.1, py := p.2, free := s.free + 1 }) ∨
    (∀ p ∈ l, ∃ c, pixelColor s p.1 p.2 = .ok c) ∧
      ((l = [] ∧ runFrame l s = completeBatch s) ∨
        ∃ p ∈ l, runFrame l s = completeBatch (showLast p (paintPixels l s))) := by
  unfold runFrame
  cases hf : nextPixel s.free (l.filter (raises s)) with
  | some p =>
    have hp := nextPixel_mem hf
    rw [List.mem_filter] at hp
    obtain ⟨e, he⟩ := raises_iff.1 hp.2
    obtain ⟨a⟩ := e
    exact .inl ⟨p, hp.1, a, he, by rw [← raisedAddress_of_error he]⟩
  | none =>
    have hnil : l.filter (raises s) = [] := by
      by_contra hne
      obtain ⟨p, hp⟩ := nextPixel_isSome (k := s.free) hne
      rw [hf] at hp
      cases hp
    refine .inr ⟨fun p hp => ?_, ?_⟩
    · have hn := List.filter_eq_nil_iff.1 hnil p hp
      cases hc : pixelColor s p.1 p.2 with
      | ok c => exact ⟨c, rfl⟩
      | error e => exact absurd (raises_iff.2 ⟨e, hc⟩) hn
    · cases hl : nextPixel s.free l with
      | some p => exact .inr ⟨p, nextPixel_mem hl, rfl⟩
      | none =>
        refine .inl ⟨?_, rfl⟩
        by_contra hne
        obtain ⟨p, hp⟩ := nextPixel_isSome (k := s.free) hne
        rw [hl] at hp
        cases hp

/-- What a frame leaves alone, and that no batch is in flight after it. -/
theorem runFrame_frame (l : List (Nat × Nat)) (s : State) :
    (runFrame l s).mem = s.mem ∧ (runFrame l s).params = s.params ∧
      (runFrame l s).outW = s.outW ∧ (runFrame l s).outH = s.outH ∧
      (runFrame l s).inbox = s.inbox ∧ (runFrame l s).batch = none := by
  obtain ⟨pixels, hpaint⟩ := paintPixels_eq l s
  rcases runFrame_cases l s with ⟨p, -, a, -, h⟩ | ⟨-, ⟨-, h⟩ | ⟨p, -, h⟩⟩ <;> rw [h]
  · simp
  · exact ⟨rfl, rfl, rfl, rfl, rfl, rfl⟩
  · rw [hpaint]
    exact ⟨rfl, rfl, rfl, rfl, rfl, rfl⟩

/-- A batch just started, over a legal memory, is a legal state with every pixel pending (R146). -/
theorem startBatch_inv {s : State} {w h : Nat} (hm : s.mem.wf)
    (hs : sentinelLegal s.params s.mem = true) (hg : gridLegal w h = true) :
    Inv (startBatch w h s) ∧ Painted (startBatch w h s) := by
  have hpos : 1 ≤ w ∧ 1 ≤ h := by simpa [gridLegal] using hg
  refine ⟨⟨hm, hs, hg, ⟨List.Pairwise.nil, by intro e he; cases he⟩, ?_, by intro hb; cases hb⟩, ?_⟩
  · intro b hb
    cases hb
    refine ⟨rfl, rfl, ?_, gridPixels_nodup w h, ?_, ?_⟩
    · exact List.ne_nil_of_mem (mem_gridPixels.2 (⟨hpos.1, hpos.2⟩ : (0, 0).1 < w ∧ (0, 0).2 < h))
    · intro p hp
      exact onGrid_iff.2 (mem_gridPixels.1 hp)
    · intro px py hon
      refine ⟨fun _ hw => ?_, fun _ => mem_gridPixels.2 (onGrid_iff.1 hon)⟩
      cases hw
  · intro b hb px py hon hp
    cases hb
    have hon' := onGrid_iff.1 hon
    exact absurd (mem_gridPixels (w := w) (h := h) (p := (px, py)).2 hon') hp

/-! ### Any operation -/

/-- What `pixel` leaves alone, whether it raises or not (R103, R148). -/
theorem runPixel_frame (px py : Nat) (s : State) :
    (runPixel px py s).mem = s.mem ∧ (runPixel px py s).params = s.params ∧
      (runPixel px py s).inbox = s.inbox ∧ (runPixel px py s).outW = s.outW ∧
      (runPixel px py s).outH = s.outH := by
  rw [runPixel_eq]
  split <;> simp

/-- Everything an operation that answers a next state can do. -/
theorem exec_cases {i : Instr} {s t : State} (h : exec i s = .next t) :
    (∃ v, v ≠ .none ∧ t = s.withResult v ∧ (∀ x y, i ≠ .pixel x y) ∧ (∀ w k, i ≠ .frame w k) ∧
      (∀ w k, i ≠ .launch w k) ∧ i ≠ .abandon) ∨
    (∃ e, t = takeException e s) ∨
    (∃ x y, i = .pixel x y ∧ s.onGrid x y = true ∧ t = runPixel x y s) ∨
    (∃ w k, i = .frame w k ∧ s.batch = none ∧ gridLegal w k = true ∧
      t = runFrame (gridPixels w k) (startBatch w k s)) ∨
    (∃ w k, i = .launch w k ∧ s.batch = none ∧ gridLegal w k = true ∧ t = startBatch w k s) ∨
    (i = .abandon ∧ (∃ b, s.batch = some b) ∧ t = endWithoutFrame .abandoned s) := by
  have hmap : ∀ {α : Type} (r : Access α) (f : α → Result), (∀ x, f x ≠ .none) →
      deliver (r.map f) s = .next t →
      (∃ v, v ≠ Result.none ∧ t = s.withResult v) ∨ ∃ e, t = takeException e s := by
    intro α r f hf h
    cases r with
    | ok v => cases h; exact .inl ⟨_, hf v, rfl⟩
    | error e => cases h; exact .inr ⟨e, rfl⟩
  have hval : ∀ v : Result, v ≠ .none → deliver (.ok v) s = .next t →
      (∃ v, v ≠ Result.none ∧ t = s.withResult v) ∨ ∃ e, t = takeException e s := by
    intro v hv h
    cases h
    exact .inl ⟨_, hv, rfl⟩
  have hnone : ¬ s.batch.isSome = true → s.batch = none := by
    cases s.batch <;> simp
  cases i <;> simp only [exec] at h
  case pixel x y =>
    simp only [execPixel] at h
    split at h
    · next hg => cases h; exact .inr (.inr (.inl ⟨x, y, rfl, hg, rfl⟩))
    · cases h
  case frame w k =>
    simp only [execFrame] at h
    split at h
    · cases h
    split at h
    · next hb hg => cases h; exact .inr (.inr (.inr (.inl ⟨w, k, rfl, hnone hb, hg, rfl⟩)))
    · cases h
  case launch w k =>
    simp only [execLaunch] at h
    split at h
    · cases h
    split at h
    · next hb hg => cases h; exact .inr (.inr (.inr (.inr (.inl ⟨w, k, rfl, hnone hb, hg, rfl⟩))))
    · cases h
  case abandon =>
    simp only [execAbandon] at h
    split at h
    · next hb =>
      cases h
      exact .inr (.inr (.inr (.inr (.inr ⟨rfl, Option.isSome_iff_exists.1 hb, rfl⟩))))
    · cases h
  all_goals
    have hd : (∃ v, v ≠ Result.none ∧ t = s.withResult v) ∨ ∃ e, t = takeException e s := by
      first
      | exact hmap _ _ (by intro x; simp) h
      | exact hval _ (by simp) h
    rcases hd with ⟨v, h1, h2⟩ | h1
    · exact .inl ⟨v, h1, h2, by simp, by simp, by simp, by simp⟩
    · exact .inr (.inl h1)

/-! ### Steps -/

/-- A step of a batch in flight while the host does not abandon it (R146). -/
theorem step_of_batch {s : State} {b : Batch} (hb : s.batch = some b)
    (hi : ∀ rest, s.inbox ≠ .abandon :: rest) : step s = invoke b s := by
  unfold step
  rw [hb]
  simp only [stepBatch]

/-- A run of one step more. -/
theorem core_run_succ {s t : State} (h : step s = .next t) (n : Nat) :
    Sys2Proof.core.run (n + 1) s = Sys2Proof.core.run n t := by
  simp only [Host.Core.run]
  rw [show Sys2Proof.core.step s = step s from rfl, h]

end Sys2Proof.Machine
end

