-- ==== Sys2Proof/Laws/PerInstr.lean ====
section
/-! SUPPORT. A law of the F-MODE format (R50, R51), one lemma per instruction: an instruction the opcode
table encodes has one byte, and that byte has the fixed bits of exactly one of its rows; any other has
none. -/

namespace Sys2Proof.Laws.ModeFormat

open Sys2Proof

/-- How many rows of the opcode table the bytes of an instruction match, byte by byte. -/
def rowCounts (i : Instr) : List Nat :=
  (encode i).map fun b => (opcodeRows.filter (rowMatches b)).length

/-- One byte in exactly one row where the table encodes the instruction, no byte where it does not. -/
def Statement (i : Instr) : Prop := rowCounts i = if i.encoded then [1] else []

theorem mode0 : Statement .mode0 := by
  unfold Statement; decide

theorem mode1 : Statement .mode1 := by
  unfold Statement; decide

theorem mode2 : Statement .mode2 := by
  unfold Statement; decide

theorem mode3 : Statement .mode3 := by
  unfold Statement; decide

theorem mode4 : Statement .mode4 := by
  unfold Statement; decide

theorem mode5 : Statement .mode5 := by
  unfold Statement; decide

theorem mode6 : Statement .mode6 := by
  unfold Statement; decide

theorem mode7 : Statement .mode7 := by
  unfold Statement; decide

theorem fallback128 (a : BitVec 7) : Statement (.fallback128 a) := by
  revert a; unfold Statement; decide

theorem fallback64 (a : BitVec 6) : Statement (.fallback64 a) := by
  revert a; unfold Statement; decide

theorem fallback32 (a : BitVec 5) : Statement (.fallback32 a) := by
  revert a; unfold Statement; decide

theorem fallback16 (a : BitVec 4) : Statement (.fallback16 a) := by
  revert a; unfold Statement; decide

theorem fallback8 (a : BitVec 3) : Statement (.fallback8 a) := by
  revert a; unfold Statement; decide

theorem peek8 (a : Nat) : Statement (.peek8 a) := rfl

theorem peek24 (a : Nat) : Statement (.peek24 a) := rfl

theorem readDisplayRegisters : Statement .readDisplayRegisters := rfl

theorem toByteAddress (a : Nat) (b : Nat) (c : RegisterBlock) : Statement (.toByteAddress a b c) := rfl

theorem toColor (a : Byte) : Statement (.toColor a) := rfl

theorem to24Color (a : Word) : Statement (.to24Color a) := rfl

theorem paletteLookup (a : Nat) (b : RegisterBlock) : Statement (.paletteLookup a b) := rfl

theorem textPixelSet (a : Byte) (b : BitVec 3) : Statement (.textPixelSet a b) := rfl

theorem pixel (a : Nat) (b : Nat) : Statement (.pixel a b) := rfl

theorem dispatch (a : Byte) (b : Nat) (c : Nat) (d : RegisterBlock) : Statement (.dispatch a b c d) := rfl

theorem cellColor (a : Byte) (b : ColorModel) (c : RegisterBlock) : Statement (.cellColor a b c) := rfl

theorem textMode (a : Nat) (b : Nat) (c : RegisterBlock) (d : Resolution) (e : ColorModel) : Statement (.textMode a b c d e) := rfl

theorem frame (a : Nat) (b : Nat) : Statement (.frame a b) := rfl

theorem launch (a : Nat) (b : Nat) : Statement (.launch a b) := rfl

theorem abandon : Statement .abandon := rfl

end Sys2Proof.Laws.ModeFormat
end

