-- ==== Sys2Proof/Laws/Reads.lean ====
section
/-! SUPPORT. What each operation that reads the memory can answer: its value when every byte it names is
in bounds, whatever the policy; the exception under the policy `fatal` otherwise. -/

namespace Sys2Proof.Machine

/-! ### One byte -/

theorem inBounds_iff {m : Memory} {a : Nat} : inBounds m a = true ↔ a < m.size := by
  simp [inBounds]

theorem effectiveAddress_of_lt {P : Params} {m : Memory} {a : Nat} (h : a < m.size) :
    effectiveAddress P m a = a := by
  unfold effectiveAddress
  split
  · rfl
  · rw [if_pos (inBounds_iff.2 h)]

/-- An in-bounds byte is read, whatever the policy (R70). -/
theorem peek8_of_lt {P : Params} {m : Memory} {a : Nat} (h : a < m.size) :
    peek8 P m a = .ok (m.byteAt a) := by
  simp only [peek8, effectiveAddress_of_lt h, inBounds_iff.2 h, if_true, wordSize, lane_word]

/-- Under `fatal` a byte out of bounds raises with its address (R70, R140). -/
theorem peek8_fatal {P : Params} {m : Memory} {a : Nat} (hP : P.oobPolicy = .fatal)
    (h : m.size ≤ a) : peek8 P m a = .error (.outOfBounds a) := by
  have hb : inBounds m a = false := by simpa [inBounds] using h
  simp [peek8, effectiveAddress, hP, hb]

/-- Under `clamp` a byte out of bounds reads the sentinel's byte (R74). -/
theorem peek8_clamp {P : Params} {m : Memory} {a k : Nat} (hP : P.oobPolicy = .clamp k)
    (hk : k < m.size) (h : m.size ≤ a) : peek8 P m a = .ok (m.byteAt k) := by
  have hb : inBounds m a = false := by simpa [inBounds] using h
  simp only [peek8, effectiveAddress, hP, hb, inBounds_iff.2 hk, if_true, wordSize, lane_word,
    Bool.false_eq_true, if_false]

/-- Everything `peek8` can answer. -/
theorem peek8_cases (P : Params) (m : Memory) (a : Nat) :
    (∃ b, b < m.size ∧ effectiveAddress P m a = b ∧ peek8 P m a = .ok (m.byteAt b)) ∨
    ∃ b, m.size ≤ b ∧ effectiveAddress P m a = b ∧ peek8 P m a = .error (.outOfBounds b) := by
  by_cases h : effectiveAddress P m a < m.size
  · refine .inl ⟨_, h, rfl, ?_⟩
    simp only [peek8, inBounds_iff.2 h, if_true, wordSize, lane_word]
  · refine .inr ⟨_, by omega, rfl, ?_⟩
    have hb : inBounds m (effectiveAddress P m a) = false := by
      simpa [inBounds] using h
    simp [peek8, hb]

/-! ### Three bytes -/

/-- Three in-bounds bytes are read (R71). -/
theorem peek24_of_lt {P : Params} {m : Memory} {a : Nat} (h : a + 2 < m.size) :
    peek24 P m a = .ok (packBytes (m.byteAt a) (m.byteAt (a + 1)) (m.byteAt (a + 2))) := by
  have h0 : a < m.size := by omega
  have h1 : a + 1 < m.size := by omega
  simp only [peek24, peek8_of_lt h0, peek8_of_lt h1, peek8_of_lt h]
  rfl

/-- Under `fatal` a 24-bit read with a byte out of bounds raises with the lowest such address (R71). -/
theorem peek24_fatal {P : Params} {m : Memory} {a : Nat} (hP : P.oobPolicy = .fatal)
    (h : m.size ≤ a + 2) : peek24 P m a = .error (.outOfBounds (max a m.size)) := by
  by_cases h0 : a < m.size
  · have e0 := peek8_of_lt (P := P) h0
    by_cases h1 : a + 1 < m.size
    · have e1 := peek8_of_lt (P := P) h1
      have hm : max a m.size = a + 2 := by omega
      rw [hm]
      simp only [peek24, e0, e1, peek8_fatal hP h]
      rfl
    · have hm : max a m.size = a + 1 := by omega
      rw [hm]
      simp only [peek24, e0, peek8_fatal hP (by omega : m.size ≤ a + 1)]
      rfl
  · have hm : max a m.size = a := by omega
    rw [hm]
    simp only [peek24, peek8_fatal hP (by omega : m.size ≤ a)]
    rfl

theorem lane_packBytes (b0 b1 b2 : Byte) :
    lane (packBytes b0 b1 b2) 0 = b0 ∧ lane (packBytes b0 b1 b2) 1 = b1 ∧
      lane (packBytes b0 b1 b2) 2 = b2 := by
  refine ⟨?_, ?_, ?_⟩ <;> apply BitVec.eq_of_getLsbD_eq <;> intro i hi
  · simp [lane, packBytes, hi]
  · have h1 : i < 32 := by omega
    have h2 : 8 + i < 16 := by omega
    have h3 : 8 + i < 32 := by omega
    simp [lane, packBytes, hi, h1, h2, h3]
  · have h1 : i < 32 := by omega
    have h2 : 16 + i - 8 = 8 + i := by omega
    have h3 : 16 + i < 32 := by omega
    have g0 : b0.getLsbD (16 + i) = false := BitVec.getLsbD_of_ge _ _ (by omega)
    simp [lane, packBytes, hi, h1, h2, h3, g0]

theorem regField_packBytes (m : Memory) (a : Nat) :
    regField (packBytes (m.byteAt a) (m.byteAt (a + 1)) (m.byteAt (a + 2))) = m.field24 a := by
  apply BitVec.eq_of_getLsbD_eq
  intro i hi
  unfold regField packBytes Memory.field24
  rw [BitVec.getLsbD_append (n := 16) (m := 8), BitVec.getLsbD_append (n := 8) (m := 8)]
  by_cases h8 : i < 8
  · have h16 : i < 16 := by omega
    simp [hi, h8, h16]
  · have g0 : (m.byteAt a).getLsbD i = false := BitVec.getLsbD_of_ge _ _ (by omega)
    by_cases h16 : i < 16
    · have h1 : i - 8 < 8 := by omega
      simp [hi, h8, h16, h1, g0]
    · have h1 : ¬ i - 8 < 8 := by omega
      have h2 : i - 8 - 8 = i - 16 := by omega
      have g1 : (m.byteAt (a + 1)).getLsbD (i - 8) = false := BitVec.getLsbD_of_ge _ _ (by omega)
      simp [hi, h8, h16, h1, h2, g0, g1]

/-! ### The register block -/

/-- With bytes 16 to 37 in bounds the parse answers the control block, whatever the policy (R80). -/
theorem readDisplayRegisters_of_le {P : Params} {m : Memory} (h : 38 ≤ m.size) :
    readDisplayRegisters P m = .ok (m.mode, m.registers) := by
  have e16 := peek8_of_lt (P := P) (m := m) (a := 16) (by omega)
  have e17 := peek24_of_lt (P := P) (m := m) (a := 17) (by omega)
  have e20 := peek24_of_lt (P := P) (m := m) (a := 20) (by omega)
  have e23 := peek24_of_lt (P := P) (m := m) (a := 23) (by omega)
  have e26 := peek24_of_lt (P := P) (m := m) (a := 26) (by omega)
  have e29 := peek24_of_lt (P := P) (m := m) (a := 29) (by omega)
  have e32 := peek24_of_lt (P := P) (m := m) (a := 32) (by omega)
  have e35 := peek24_of_lt (P := P) (m := m) (a := 35) (by omega)
  simp only [readDisplayRegisters, modeOffset, screenOffset, paletteOffset, fontOffset, heightOffset,
    widthOffset, rowOffsetOffset, colOffsetOffset, e16, e17, e20, e23, e26, e29, e32, e35,
    Memory.registers, Memory.mode, ← regField_packBytes]
  rfl

/-- A read whose first part raises, raises. -/
theorem bind_error {α β : Type} {r : Access α} {f : α → Access β} {e : Exception}
    (h : r = .error e) : (r >>= f) = .error e := by
  subst h; rfl

/-- A read whose first part answers goes on with it. -/
theorem bind_ok {α β : Type} {r : Access α} {f : α → Access β} {a : α}
    (h : r = .ok a) : (r >>= f) = f a := by
  subst h; rfl

/-- Under `fatal` the parse raises exactly when some control byte is out of bounds (R80). -/
theorem readDisplayRegisters_fatal {P : Params} {m : Memory} (hP : P.oobPolicy = .fatal)
    (h : m.size < 38) : ∃ a, readDisplayRegisters P m = .error (.outOfBounds a) := by
  have step8 : ∀ {β : Type} (a : Nat) (f : Byte → Access β),
      (∃ b, peek8 P m a = .ok b) ∨ ∃ x, (peek8 P m a >>= f) = .error (.outOfBounds x) := by
    intro β a f
    rcases peek8_cases P m a with ⟨b, -, -, e⟩ | ⟨b, -, -, e⟩
    · exact .inl ⟨_, e⟩
    · exact .inr ⟨b, bind_error e⟩
  have step24 : ∀ {β : Type} (a : Nat) (f : Word → Access β),
      (∃ b, peek24 P m a = .ok b) ∨ ∃ x, (peek24 P m a >>= f) = .error (.outOfBounds x) := by
    intro β a f
    by_cases ha : a + 2 < m.size
    · exact .inl ⟨_, peek24_of_lt ha⟩
    · exact .inr ⟨_, bind_error (peek24_fatal hP (by omega))⟩
  unfold readDisplayRegisters
  rcases step8 modeOffset _ with ⟨b, e⟩ | h' <;> [rw [bind_ok e]; exact h']
  rcases step24 screenOffset _ with ⟨b, e⟩ | h' <;> [rw [bind_ok e]; exact h']
  rcases step24 paletteOffset _ with ⟨b, e⟩ | h' <;> [rw [bind_ok e]; exact h']
  rcases step24 fontOffset _ with ⟨b, e⟩ | h' <;> [rw [bind_ok e]; exact h']
  rcases step24 heightOffset _ with ⟨b, e⟩ | h' <;> [rw [bind_ok e]; exact h']
  rcases step24 widthOffset _ with ⟨b, e⟩ | h' <;> [rw [bind_ok e]; exact h']
  rcases step24 rowOffsetOffset _ with ⟨b, e⟩ | h' <;> [rw [bind_ok e]; exact h']
  exact ⟨_, bind_error (peek24_fatal hP (by simp only [colOffsetOffset]; omega))⟩

/-! ### The palette, the cells and the glyphs -/

theorem to24Color_packBytes (b0 b1 b2 : Byte) :
    to24Color (packBytes b0 b1 b2) = { r := b0, g := b1, b := b2, a := 255#8 } := by
  obtain ⟨h0, h1, h2⟩ := lane_packBytes b0 b1 b2
  simp only [to24Color, h0, h1, h2]

/-- A palette entry in bounds gives its colour (R94). -/
theorem paletteLookup_of_lt {P : Params} {m : Memory} {index : Nat} {regs : RegisterBlock}
    (h : entryAddress regs index + 2 < m.size) :
    paletteLookup P m index regs = .ok (entryColor m regs index) := by
  have e := peek24_of_lt (P := P) h
  simp only [paletteLookup, paletteEntryAddress, paletteEntryBytes, paletteEntries]
  exact (bind_ok e).trans (by rw [to24Color_packBytes]; rfl)

/-- Under `fatal` a palette entry with a byte out of bounds raises (R94). -/
theorem paletteLookup_fatal {P : Params} {m : Memory} {index : Nat} {regs : RegisterBlock}
    (hP : P.oobPolicy = .fatal) (h : m.size ≤ entryAddress regs index + 2) :
    paletteLookup P m index regs = .error (.outOfBounds (max (entryAddress regs index) m.size)) :=
  bind_error (peek24_fatal hP h)

/-- A graphics cell in bounds: the colour its byte has in the mode's colour model (R106). -/
theorem highGraphics_of_lt {P : Params} {m : Memory} {px py : Nat} {regs : RegisterBlock}
    (model : ColorModel) (h : highCellAddress regs px py < m.size) :
    highGraphics P m px py regs model =
      cellColor P m (m.byteAt (highCellAddress regs px py)) model regs :=
  bind_ok (peek8_of_lt h)

/-- A graphics cell inside the window, in bounds (R127, R106). -/
theorem lowGraphics_of_lt {P : Params} {m : Memory} {origin : Int × Int} {px py : Nat}
    {regs : RegisterBlock} (model : ColorModel) (hw : inWindow origin px py = true)
    (h : lowCellAddress regs origin px py < m.size) :
    lowGraphics P m origin px py regs model =
      cellColor P m (m.byteAt (lowCellAddress regs origin px py)) model regs := by
  unfold lowGraphics
  simp only [inWindow] at hw
  simp only [hw, if_true]
  exact bind_ok (peek8_of_lt h)

/-- Outside the window no cell is read (R128, R130). -/
theorem lowGraphics_outside {P : Params} {m : Memory} {origin : Int × Int} {px py : Nat}
    {regs : RegisterBlock} (model : ColorModel) (hw : inWindow origin px py = false) :
    lowGraphics P m origin px py regs model = cellColor P m 0x00#8 model regs := by
  unfold lowGraphics
  simp only [inWindow] at hw
  simp [hw]

/-- The three byte reads of a text routine, in bounds: what is left is the colour (R117). -/
theorem textMode_of_lt {P : Params} {m : Memory} {px py : Nat} {regs : RegisterBlock}
    {res : Resolution} (model : ColorModel) (hc : charAddress regs res px py < m.size)
    (hf : fontAddress m regs res px py < m.size) (ht : attrAddress regs res px py < m.size) :
    textMode P m px py regs res model =
      match model with
      | .paletted => paletteLookup P m (textIndex m regs res px py) regs
      | .direct =>
        .ok (toColor (if glyphBit m regs res px py then m.byteAt (attrAddress regs res px py)
          else 0x00#8)) := by
  unfold textMode
  refine (bind_ok (peek8_of_lt hc)).trans ?_
  refine (bind_ok (peek8_of_lt hf)).trans ?_
  refine (bind_ok (peek8_of_lt ht)).trans ?_
  cases model <;> rfl

/-- Under `fatal` a text routine raises when a byte it names is out of bounds (R117, R140). -/
theorem textMode_fatal {P : Params} {m : Memory} {px py : Nat} {regs : RegisterBlock}
    {res : Resolution} {model : ColorModel} (hP : P.oobPolicy = .fatal)
    (h : ∃ a ∈ textReads m regs res model px py, m.size ≤ a) :
    ∃ a, textMode P m px py regs res model = .error (.outOfBounds a) := by
  by_cases hc : charAddress regs res px py < m.size
  swap
  · exact ⟨_, bind_error (peek8_fatal hP (not_lt.1 hc))⟩
  by_cases hf : fontAddress m regs res px py < m.size
  swap
  · exact ⟨_, (bind_ok (peek8_of_lt hc)).trans (bind_error (peek8_fatal hP (not_lt.1 hf)))⟩
  by_cases ht : attrAddress regs res px py < m.size
  swap
  · exact ⟨_, (bind_ok (peek8_of_lt hc)).trans ((bind_ok (peek8_of_lt hf)).trans
      (bind_error (peek8_fatal hP (not_lt.1 ht))))⟩
  rw [textMode_of_lt model hc hf ht]
  obtain ⟨a, ha, hb⟩ := h
  cases model with
  | direct =>
    simp only [textReads, List.append_nil, List.mem_cons, List.not_mem_nil, or_false] at ha
    omega
  | paletted =>
    simp only [textReads, entryReads, List.cons_append, List.nil_append, List.mem_cons,
      List.not_mem_nil, or_false] at ha
    exact ⟨_, paletteLookup_fatal hP (by omega)⟩

/-- Under `fatal` the colour of a cell byte raises when its palette entry is out of bounds (R106). -/
theorem cellColor_fatal {P : Params} {m : Memory} {b : Byte} {regs : RegisterBlock}
    (hP : P.oobPolicy = .fatal) (h : m.size ≤ entryAddress regs (cellIndex b) + 2) :
    ∃ a, cellColor P m b .paletted regs = .error (.outOfBounds a) :=
  ⟨_, paletteLookup_fatal hP h⟩

/-- Under `fatal` a high-resolution graphics routine raises when its cell is out of bounds. -/
theorem highGraphics_fatal {P : Params} {m : Memory} {px py : Nat} {regs : RegisterBlock}
    {model : ColorModel} (hP : P.oobPolicy = .fatal) (h : m.size ≤ highCellAddress regs px py) :
    highGraphics P m px py regs model = .error (.outOfBounds (highCellAddress regs px py)) :=
  bind_error (peek8_fatal hP h)

/-- Under `fatal` a low-resolution graphics routine raises inside the window when its cell is out of
bounds. -/
theorem lowGraphics_fatal {P : Params} {m : Memory} {origin : Int × Int} {px py : Nat}
    {regs : RegisterBlock} {model : ColorModel} (hP : P.oobPolicy = .fatal)
    (hw : inWindow origin px py = true) (h : m.size ≤ lowCellAddress regs origin px py) :
    lowGraphics P m origin px py regs model =
      .error (.outOfBounds (lowCellAddress regs origin px py)) := by
  unfold lowGraphics
  simp only [inWindow] at hw
  simp only [hw, if_true]
  exact bind_error (peek8_fatal hP h)

/-- Whether a pixel is inside the window, as R127 writes it. -/
theorem inWindow_iff (o : Int × Int) (px py : Nat) :
    inWindow o px py = true ↔
      0 ≤ (px : Int) - o.1 ∧ (px : Int) - o.1 < 576 ∧ 0 ≤ (py : Int) - o.2 ∧ (py : Int) - o.2 < 576 := by
  simp only [inWindow, insideWindow, lgWindow, Bool.and_eq_true, decide_eq_true_eq, and_assoc]
  norm_num

/-- A routine runs on the registers of the memory when the control block is in bounds (R11, R82). -/
theorem withRegisters_of_le {s : State} (h : 38 ≤ s.mem.size) (f : RegisterBlock → Access Color) :
    withRegisters s f = f s.mem.registers := by
  unfold withRegisters
  exact bind_ok (readDisplayRegisters_of_le h)

/-! ### Geometry -/

/-- `cx` and `cy` of R116 as quotients. -/
theorem textCell_eq (res : Resolution) (p : Nat) : textCell res p = p / (8 * glyphScale res) := by
  cases res <;> simp [textCell, resShift, glyphScale, Nat.shiftRight_eq_div_pow]

/-- `gy` of R116 as a quotient. -/
theorem glyphRow_eq (res : Resolution) (p : Nat) : glyphRow res p = p / glyphScale res % 8 := by
  cases res <;> simp [glyphRow, resShift, glyphScale, Nat.shiftRight_eq_div_pow]

/-- `gx` of R116 as a quotient. -/
theorem glyphColumn_toNat (res : Resolution) (p : Nat) :
    (glyphColumn res p).toNat = p / glyphScale res % 8 := by
  cases res <;> simp [glyphColumn, resShift, glyphScale, Nat.shiftRight_eq_div_pow]

end Sys2Proof.Machine
end

