-- ==== Sys2Proof/Tests/Slice0.lean ====
section
/-! SUPPORT. Tests of single operations and steps, and one witness for the hypotheses of every statement.
Expected values come from spec/95_test_vectors.md (named in each comment) or from the tables of spec/. -/

namespace Sys2Proof.Tests

open Sys2Proof Sys2Proof.Machine

/-! ### Small states -/

/-- A memory of so many words that holds a list of bytes from each given address on. -/
def image (words : Nat) (parts : List (Nat × List Byte)) : Memory :=
  parts.foldl (fun m part =>
    part.2.zipIdx.foldl (fun m' e => m'.write (part.1 + e.2) e.1) m) { words := words, cells := [] }

/-- The state after reset on a memory, with a coordinate current and a grid. -/
def on (m : Memory) (outW : Nat := 768) (outH : Nat := 576) (px : Nat := 0) (py : Nat := 0) : State :=
  { State.reset with mem := m, outW := outW, outH := outH, px := px, py := py }

/-- What an operation delivers. -/
def valueOf : Host.Outcome State Fault Refusal → Option Result
  | .next s => some s.result
  | _ => none

/-- The address of the exception an operation raises. -/
def raisedBy : Host.Outcome State Fault Refusal → Option Nat
  | .next s => s.oob
  | _ => none

/-- How the latest batch ended, after an operation. -/
def endedBy : Host.Outcome State Fault Refusal → Option BatchOutcome
  | .next s => s.outcome
  | _ => none

/-- A pixel of `out` after an operation. -/
def shownBy (px py : Nat) : Host.Outcome State Fault Refusal → Option Color
  | .next s => s.pixelAt px py
  | _ => none

/-- The bytes in memory after an operation. -/
def cellsAfter : Host.Outcome State Fault Refusal → Option (List Host.Cell)
  | .next s => some s.mem.cells
  | _ => none

/-- An opaque colour of the surface. -/
def rgb (r g b : Nat) : Color :=
  { r := BitVec.ofNat 8 r, g := BitVec.ofNat 8 g, b := BitVec.ofNat 8 b, a := 255#8 }

/-- Section 2.1 of the vectors. -/
def eightBytes : Memory := image 2 [(0, [0x10, 0x11, 0x12, 0x13, 0x14, 0x15, 0x16, 0x17])]

/-- V-R2. -/
def controlR2 : List Byte :=
  [0x06, 0x2C, 0x01, 0x00, 0x00, 0x02, 0x00, 0x00, 0x08, 0x00, 0x02, 0x00, 0x00, 0x03, 0x00, 0x00,
    0x01, 0x00, 0x00, 0x02, 0x00, 0x00]

/-- Program P1 (SIZE 128). -/
def imageP1 : Memory :=
  image 32 [(16, [0x03, 0x64]), (26, [0x01]), (29, [0x02]), (100, [0xE0])]

/-- Program P2 (SIZE 4096), with a mode byte. -/
def imageP2 (mode : Byte) : Memory :=
  image 1024 [(16, [mode, 0xC8]), (24, [0x04]), (26, [0x02]), (29, [0x04]), (201, [0x05]), (209, [0xF0]),
    (1064, [0x80])]

/-- What pixels (0,0) and (1,1) of program P3 (SIZE 4096) need, with a mode byte. -/
def imageP3 (mode : Byte) : Memory :=
  image 1024 [(16, controlR2), (16, [mode]), (305, [0x06]), (311, [0x1E]), (515, [0x00, 0x00, 0x80]),
    (554, [0xFF, 0xFF, 0x00]), (2096, [0xFF, 0x81])]

/-- What pixel (99,3) of program P4 (SIZE 1024) needs, and its palette entries 0 and 5, with a mode
byte. -/
def imageP4 (mode : Byte) : Memory :=
  image 256 [(16, [mode, 0x40]), (20, [0x80]), (26, [0x04]), (29, [0x04]), (64, [0x30]), (69, [0x35]),
    (128, [0x00, 0xFF, 0x00]), (143, [0x50, 0xAF, 0x05])]

/-- Program P6 (SIZE 128). -/
def imageP6 : Memory :=
  image 32 [(16, [0x03, 0x7E]), (26, [0x02]), (29, [0x02]), (126, [0x1C, 0x03])]

/-- A register block with small planes. -/
def regs0 : RegisterBlock :=
  { screen := 1000, palette := 512, font := 2048, height := 25, width := 40, rowOffset := 0,
    colOffset := 0 }

/-- `clamp` with a sentinel. -/
def clamped (sentinel : Nat) (s : State) : State :=
  { s with params := { s.params with oobPolicy := .clamp sentinel } }

/-- A batch of one row of `w` pixels, in flight. -/
def inFlight (m : Memory) (w : Nat) (inbox : List Input := []) : State :=
  startBatch w 1 { State.reset with mem := m, inbox := inbox }

/-! ### Decoding (R51 and the opcode table) -/

theorem test_decode_modes :
    decode [0b00000000#8] = .ok .mode0 ∧ decode [0b00000001#8] = .ok .mode1 ∧
    decode [0b00000010#8] = .ok .mode2 ∧ decode [0b00000011#8] = .ok .mode3 ∧
    decode [0b00000100#8] = .ok .mode4 ∧ decode [0b00000101#8] = .ok .mode5 ∧
    decode [0b00000110#8] = .ok .mode6 ∧ decode [0b00000111#8] = .ok .mode7 := by
  refine ⟨rfl, rfl, rfl, rfl, rfl, rfl, rfl, rfl⟩

/-- The lowest and the highest byte of each FALLBACK row, and V-D2. -/
theorem test_decode_fallback_rows :
    decode [0b10000000#8] = .ok (.fallback128 0b0000000#7) ∧
    decode [0b11111111#8] = .ok (.fallback128 0b1111111#7) ∧
    decode [0b01000000#8] = .ok (.fallback64 0b000000#6) ∧
    decode [0b01111111#8] = .ok (.fallback64 0b111111#6) ∧
    decode [0b00100000#8] = .ok (.fallback32 0b00000#5) ∧
    decode [0b00111111#8] = .ok (.fallback32 0b11111#5) ∧
    decode [0b00010000#8] = .ok (.fallback16 0b0000#4) ∧
    decode [0b00011111#8] = .ok (.fallback16 0b1111#4) ∧
    decode [0b00001000#8] = .ok (.fallback8 0b000#3) ∧
    decode [0b00001111#8] = .ok (.fallback8 0b111#3) ∧
    decode [0b10000011#8] = .ok (.fallback128 0b0000011#7) := by
  refine ⟨rfl, rfl, rfl, rfl, rfl, rfl, rfl, rfl, rfl, rfl, rfl⟩

theorem test_decode_refuses_other_lengths :
    decode [] = .error .noModeByte ∧ decode [0x03, 0x00] = .error .longerThanModeByte := by
  refine ⟨rfl, rfl⟩

theorem test_decodeTableWord :
    decodeTableWord 8 0x83 = some (.fallback128 3#7) ∧ decodeTableWord 8 5 = some .mode5 ∧
    decodeTableWord 16 5 = none := by decide

/-! ### Well-formedness -/

theorem test_wf_refuses_empty_grids :
    Instr.wf (.frame 0 5) = false ∧ Instr.wf (.frame 5 0) = false ∧ Instr.wf (.launch 0 5) = false ∧
    Instr.wf (.launch 5 0) = false ∧ Instr.wf (.frame 1 1) = true := by decide

/-! ### byte_decoder and register_block -/

/-- V-B1, V-B2, V-B8. -/
theorem test_peek8 :
    valueOf (exec (.peek8 0) (on eightBytes)) = some (.byte 0x10) ∧
    valueOf (exec (.peek8 4) (on eightBytes)) = some (.byte 0x14) ∧
    raisedBy (exec (.peek8 8) (on eightBytes)) = some 8 := by decide

/-- V-B3, V-B5, V-B6, V-B8. -/
theorem test_peek24 :
    valueOf (exec (.peek24 0) (on eightBytes)) = some (.word 0x121110) ∧
    valueOf (exec (.peek24 2) (on eightBytes)) = some (.word 0x141312) ∧
    valueOf (exec (.peek24 3) (on eightBytes)) = some (.word 0x151413) ∧
    raisedBy (exec (.peek24 6) (on eightBytes)) = some 8 := by decide

/-- V-R2. -/
theorem test_read_display_registers :
    valueOf (exec .readDisplayRegisters (on (image 10 [(16, controlR2)]))) =
      some (.registers 6
        { screen := 300, palette := 512, font := 2048, height := 2, width := 3, rowOffset := 1,
          colOffset := 2 }) := by decide

/-- V-R4. -/
theorem test_read_display_registers_short :
    raisedBy (exec .readDisplayRegisters (on (image 9 [(16, [0x03])]))) = some 36 := by decide

/-! ### address_translator, color_decoder, glyph_sampler -/

/-- V-A2, V-A5. -/
theorem test_to_byte_address :
    valueOf (exec (.toByteAddress 39 24 regs0) State.reset) = some (.address 1999) ∧
    valueOf (exec (.toByteAddress 0 0 { regs0 with rowOffset := 3, colOffset := 38 }) State.reset) =
      some (.address 1158) := by decide

/-- V-A6. -/
theorem test_to_byte_address_max_scroll :
    valueOf (exec (.toByteAddress 0 0
      { regs0 with rowOffset := 16777215, colOffset := 16777215 }) State.reset) =
      some (.address 1615) := by decide

/-- V-C3, V-C9. -/
theorem test_to_color :
    valueOf (exec (.toColor 0xE0) State.reset) = some (.color (rgb 255 0 0)) ∧
    valueOf (exec (.toColor 0xF0) State.reset) = some (.color (rgb 255 146 0)) ∧
    valueOf (exec (.toColor 0xA5) State.reset) = some (.color (rgb 182 36 85)) := by decide

/-- V-C10, V-C11. -/
theorem test_to_24_color :
    valueOf (exec (.to24Color 0x00332211) State.reset) = some (.color (rgb 17 34 51)) ∧
    valueOf (exec (.to24Color 0xAB000000) State.reset) = some (.color (rgb 0 0 0)) := by decide

/-- V-C12, V-C13. -/
theorem test_palette_lookup :
    let s := on (image 256 [(512, [0x09, 0x08, 0x07]), (518, [0xFF, 0x80, 0x00])])
    valueOf (exec (.paletteLookup 16 regs0) s) = some (.color (rgb 9 8 7)) ∧
    valueOf (exec (.paletteLookup 2 regs0) s) = some (.color (rgb 255 128 0)) := by decide

/-- V-C14 with `MEM_SIZE = 128`. -/
theorem test_palette_lookup_raises :
    raisedBy (exec (.paletteLookup 15 { regs0 with palette := 81 }) (on (image 32 []))) = some 128 ∧
    raisedBy (exec (.paletteLookup 14 { regs0 with palette := 81 }) (on (image 32 []))) = none := by
  decide

/-- V-G1, V-G2. -/
theorem test_text_pixel_set :
    valueOf (exec (.textPixelSet 0x80 0) State.reset) = some (.bit true) ∧
    valueOf (exec (.textPixelSet 0x80 1) State.reset) = some (.bit false) ∧
    valueOf (exec (.textPixelSet 0x01 7) State.reset) = some (.bit true) := by decide

/-- V-G7, V-G8. -/
theorem test_cell_color :
    valueOf (exec (.cellColor 0x35 .direct regs0) State.reset) = some (.color (rgb 36 182 85)) ∧
    valueOf (exec (.cellColor 0xF5 .paletted { regs0 with palette := 128 }) (on (imageP4 0x07))) =
      some (.color (rgb 80 175 5)) := by decide

/-! ### Text routines -/

/-- P2: pixel (17,1) is on, pixel (18,0) is off. -/
theorem test_mode0 :
    valueOf (exec .mode0 (on (imageP2 0) 768 576 17 1)) = some (.color (rgb 255 146 0)) ∧
    valueOf (exec .mode0 (on (imageP2 0) 768 576 18 0)) = some (.color (rgb 0 0 0)) := by decide

/-- P2, variant MODE 2: pixel (8,0) is on, pixel (9,0) is off. -/
theorem test_mode2 :
    valueOf (exec .mode2 (on (imageP2 2) 768 576 8 0)) = some (.color (rgb 255 146 0)) ∧
    valueOf (exec .mode2 (on (imageP2 2) 768 576 9 0)) = some (.color (rgb 0 0 0)) := by decide

/-- P3, variant MODE 4: pixel (1,1) is on, pixel (3,3) is off. -/
theorem test_mode4 :
    valueOf (exec .mode4 (on (imageP3 4) 768 576 1 1)) = some (.color (rgb 255 255 0)) ∧
    valueOf (exec .mode4 (on (imageP3 4) 768 576 3 3)) = some (.color (rgb 0 0 128)) := by decide

/-- P3: pixel (0,0) is on, pixel (1,1) is off. -/
theorem test_mode6 :
    valueOf (exec .mode6 (on (imageP3 6))) = some (.color (rgb 255 255 0)) ∧
    valueOf (exec .mode6 (on (imageP3 6) 768 576 1 1)) = some (.color (rgb 0 0 128)) := by decide

/-- P2 through the common routine, and V-X5: addresses do not wrap at 32 bits. -/
theorem test_text_mode :
    valueOf (exec (.textMode 16 0 (imageP2 0).registers .low .direct) (on (imageP2 0))) =
      some (.color (rgb 255 146 0)) ∧
    raisedBy (exec (.textMode 0 0
      { regs0 with screen := 100, font := 1024, width := 65536, height := 65536 } .high .direct)
      (on (image 1024 []))) = some 4294967396 := by decide

/-! ### Graphics routines -/

/-- P4, variant MODE 1: pixel (95,0) is outside the window, pixel (99,3) inside. -/
theorem test_mode1 :
    valueOf (exec .mode1 (on (imageP4 1) 768 576 95 0)) = some (.color (rgb 0 0 0)) ∧
    valueOf (exec .mode1 (on (imageP4 1) 768 576 99 3)) = some (.color (rgb 36 182 85)) := by decide

/-- P1: pixels (3,3) and (4,0). -/
theorem test_mode3 :
    valueOf (exec .mode3 (on imageP1 768 576 3 3)) = some (.color (rgb 255 0 0)) ∧
    valueOf (exec .mode3 (on imageP1 768 576 4 0)) = some (.color (rgb 0 0 0)) := by decide

/-- P4: pixel (95,0) is outside the window, pixel (99,3) inside. -/
theorem test_mode5 :
    valueOf (exec .mode5 (on (imageP4 5) 768 576 95 0)) = some (.color (rgb 0 255 0)) ∧
    valueOf (exec .mode5 (on (imageP4 5) 768 576 99 3)) = some (.color (rgb 80 175 5)) := by decide

/-- R127 on the grids of V-G6 and V-G6b, and an origin the machine carries itself. -/
theorem test_window_origin :
    (on imageP1 768 576).lgOrigin = (96, 0) ∧ (on imageP1 320 200).lgOrigin = (-128, -188) ∧
    { on imageP1 with params := { oobPolicy := .fatal, lgOrigin := some (5, -7) } }.lgOrigin =
      (5, -7) := by decide

/-- P4, variant MODE 7: pixel (4,4). -/
theorem test_mode7 :
    valueOf (exec .mode7 (on (imageP4 7) 768 576 4 4)) = some (.color (rgb 80 175 5)) := by decide

/-! ### Dispatcher -/

/-- R104: mode byte 3 and V-D2. -/
theorem test_dispatch :
    valueOf (exec (.dispatch 3 3 3 imageP1.registers) (on imageP1)) = some (.color (rgb 255 0 0)) ∧
    valueOf (exec (.dispatch 0x83 3 3 imageP1.registers) (on imageP1)) =
      some (.color Config.fallbackColor) := by
  refine ⟨rfl, rfl⟩

/-- R105: every FALLBACK row (V-D2). -/
theorem test_fallback :
    valueOf (exec (.fallback128 3) State.reset) = some (.color Config.fallbackColor) ∧
    valueOf (exec (.fallback64 0) State.reset) = some (.color Config.fallbackColor) ∧
    valueOf (exec (.fallback32 0) State.reset) = some (.color Config.fallbackColor) ∧
    valueOf (exec (.fallback16 0) State.reset) = some (.color Config.fallbackColor) ∧
    valueOf (exec (.fallback8 0) State.reset) = some (.color Config.fallbackColor) := by
  refine ⟨rfl, rfl, rfl, rfl, rfl⟩

/-- P6: pixels (4,0) and (0,4). -/
theorem test_pixel :
    shownBy 4 0 (exec (.pixel 4 0) (on imageP6)) = some (rgb 0 0 255) ∧
    raisedBy (exec (.pixel 0 4) (on imageP6)) = some 128 := by decide

/-- P6 under `clamp` with the sentinel 127. -/
theorem test_pixel_clamp :
    shownBy 0 4 (exec (.pixel 0 4) (clamped 127 (on imageP6))) = some (rgb 0 0 255) := by decide

/-! ### Batches and steps -/

/-- P1 on a grid of 5 × 1, and P6 on a grid of 1 × 5. -/
theorem test_frame :
    shownBy 3 0 (exec (.frame 5 1) (on imageP1)) = some (rgb 255 0 0) ∧
    shownBy 4 0 (exec (.frame 5 1) (on imageP1)) = some (rgb 0 0 0) ∧
    endedBy (exec (.frame 1 5) (on imageP6)) = some .failed := by decide

/-- R151, R149. -/
theorem test_launch_abandon :
    endedBy (exec (.launch 5 1) (on imageP1)) = none ∧
    endedBy (exec .abandon (inFlight imageP1 5)) = some .abandoned := by decide

/-- R150: the writer's store, between batches. -/
theorem test_step_store :
    cellsAfter (step { State.reset with inbox := [.store 16 0x03] }) = some [(16, 0x03)] := by decide

/-- P5: an unrecognised mode completes on 40 bytes and fails on 36. -/
theorem test_step_fallback :
    endedBy (step (inFlight (image 10 [(16, [0x08])]) 1)) = some .completed ∧
    endedBy (step (inFlight (image 9 [(16, [0x08])]) 1)) = some .failed := by decide

/-- A mode byte placed after reset is the one the next step runs (log 12). -/
theorem test_step_withFetchWord :
    valueOf (step (State.reset.withFetchWord 8 0x83)) = some (.color Config.fallbackColor) ∧
    endedBy (step (State.reset.withFetchWord 8 0x00)) = some .completed ∧
    endedBy (step (State.reset.withFetchWord 8 0x05)) = some .completed := by
  refine ⟨rfl, rfl, rfl⟩

/-! ### Witnesses: states and operands that meet the hypotheses of the statements, clause by clause -/

theorem witness_Peek8ReadsItsLaneOrRaises :
    7 < (on eightBytes).mem.size ∧ (on eightBytes).params.oobPolicy = .fatal ∧
    (on eightBytes).mem.size ≤ 8 := by decide

theorem witness_Peek24ReadsThreeBytesOrRaises :
    5 + 2 < (on eightBytes).mem.size ∧ (on eightBytes).params.oobPolicy = .fatal ∧
    (on eightBytes).mem.size ≤ 6 + 2 := by decide

theorem witness_Peek24IsTheWordPortSplice :
    5 + 2 < (on eightBytes).mem.size ∧ 3 + 2 < (on eightBytes).mem.size := by decide

theorem witness_ClampReplacesEachByteAddress :
    (clamped 7 (on eightBytes)).params.oobPolicy = .clamp 7 ∧
    7 < (clamped 7 (on eightBytes)).mem.size := by decide

theorem witness_UnderClampNothingRaises :
    let s := clamped 127 (on imageP6 1 5)
    s.params.oobPolicy = .clamp 127 ∧ 127 < s.mem.size ∧ 0 < s.outW ∧ 4 < s.outH ∧ s.batch = none := by
  decide

theorem witness_RegisterParseReadsTheControlBlock :
    38 ≤ (on (image 10 [(16, controlR2)])).mem.size ∧
    (on (image 9 [])).params.oobPolicy = .fatal ∧ (on (image 9 [])).mem.size < 38 := by decide

theorem witness_ToByteAddressIsTheScrolledCell :
    ({ regs0 with width := 1 } : RegisterBlock).width ≠ 0#24 ∧
    ({ regs0 with width := 1 } : RegisterBlock).height ≠ 0#24 := by decide

theorem witness_ZeroDimensionsUseTheOpenRemainder :
    (({ regs0 with height := 0 } : RegisterBlock).height = 0#24 ∧
      ({ regs0 with height := 0 } : RegisterBlock).width ≠ 0#24) ∧
    ({ regs0 with width := 0 } : RegisterBlock).width = 0#24 := by decide

theorem witness_TranslationIsToroidal :
    (regs0.width ≠ 0#24 ∧ regs0.height ≠ 0#24) ∧
    (40 + regs0.colOffset.toNat) % regs0.width.toNat =
      (0 + regs0.colOffset.toNat) % regs0.width.toNat ∧
    (25 + regs0.rowOffset.toNat) % regs0.height.toNat =
      (0 + regs0.rowOffset.toNat) % regs0.height.toNat := by decide

theorem witness_ChannelExpansionIsMonotonic :
    (6#3).toNat < (7#3).toNat ∧ (2#2).toNat < (3#2).toNat := by decide

/-- Entry 14 ends with the last byte of the memory, entry 15 is out of bounds (V-C14). -/
theorem witness_PaletteLookupReadsOneEntry :
    81 + 3 * (14 % 16) + 2 < (on (image 32 [])).mem.size ∧
    (on (image 32 [])).params.oobPolicy = .fatal ∧
    (on (image 32 [])).mem.size ≤ 81 + 3 * (15 % 16) + 2 := by decide

theorem witness_CellColorFollowsTheModel :
    ({ regs0 with palette := 81 } : RegisterBlock).palette.toNat + 3 * ((0xFE#8).toNat % 16) + 2 <
      (on (image 32 [])).mem.size := by decide

/-- P2 at pixel (16,0): all three bytes are in bounds; the palette entry too. -/
theorem witness_TextModeColoursItsPixel :
    let m := imageP2 0
    let r := m.registers
    charAddress r .low 16 0 < m.size ∧ fontAddress m r .low 16 0 < m.size ∧
      attrAddress r .low 16 0 < m.size ∧ entryAddress r (textIndex m r .low 16 0) + 2 < m.size := by
  decide

/-- Each address out of bounds in turn. -/
theorem witness_TextModeColoursItsPixel_raises :
    let m := image 32 []
    (on m).params.oobPolicy = .fatal ∧
    m.size ≤ charAddress { regs0 with screen := 128 } .high 0 0 ∧
    m.size ≤ fontAddress m { regs0 with screen := 0, font := 128 } .high 0 0 ∧
    m.size ≤ attrAddress { regs0 with screen := 0, font := 0, width := 8, height := 16 } .high 0 0 ∧
    m.size ≤ entryAddress { regs0 with palette := 126 } 0 + 2 := by decide

theorem witness_TextRoutinesAreTextMode : 38 ≤ (on (image 10 [])).mem.size := by decide

theorem witness_DirectTextShowsAttributeOrBlack :
    ∀ res ∈ [Resolution.low, .high],
      let m := imageP2 0
      38 ≤ (on m).mem.size ∧ charAddress m.registers res 0 0 < m.size ∧
      fontAddress m m.registers res 0 0 < m.size ∧ attrAddress m.registers res 0 0 < m.size := by decide

theorem witness_PalettedTextShowsForegroundOrBackground :
    ∀ res ∈ [Resolution.low, .high],
      let m := imageP3 6
      38 ≤ (on m).mem.size ∧ charAddress m.registers res 0 0 < m.size ∧
      fontAddress m m.registers res 0 0 < m.size ∧ attrAddress m.registers res 0 0 < m.size ∧
      m.registers.palette.toNat + 3 * 14 + 2 < m.size ∧
      textIndex m m.registers res 0 0 = 14 := by decide

theorem witness_TextReadsStayInTheirRegions :
    (imageP3 6).registers.width ≠ 0#24 ∧ (imageP3 6).registers.height ≠ 0#24 := by decide

/-- P6: the cell of pixel (4,0) is the last byte of the memory, the cell of pixel (0,4) is out of
bounds; P4's cell and palette entry are in bounds. -/
theorem witness_HighGraphicsShowsTheCell :
    (38 ≤ imageP6.size ∧ highCellAddress imageP6.registers 4 0 < imageP6.size) ∧
    ((on imageP6).params.oobPolicy = .fatal ∧
      imageP6.size ≤ highCellAddress imageP6.registers 0 4) ∧
    (38 ≤ (imageP4 7).size ∧ highCellAddress (imageP4 7).registers 4 4 < (imageP4 7).size ∧
      entryAddress (imageP4 7).registers 5 + 2 < (imageP4 7).size) := by decide

/-- The paletted clause that raises on the palette entry alone. -/
theorem witness_HighGraphicsShowsTheCell_palette :
    let m := image 32 [(16, [0x07, 0x64]), (20, [0x80]), (26, [0x01]), (29, [0x01])]
    38 ≤ m.size ∧ (on m).params.oobPolicy = .fatal ∧ highCellAddress m.registers 0 0 < m.size ∧
    m.size ≤ entryAddress m.registers 0 + 2 := by decide

/-- The four corners of the window of a 768 × 576 grid, and the pixels beside it. -/
theorem witness_LowDirectGraphicsIsWindowed :
    let s := on (imageP4 1)
    38 ≤ s.mem.size ∧ inWindow s.lgOrigin 96 0 = true ∧ inWindow s.lgOrigin 671 575 = true ∧
    lowCellAddress s.mem.registers s.lgOrigin 96 0 < s.mem.size ∧
    lowCellAddress s.mem.registers s.lgOrigin 671 575 < s.mem.size ∧
    inWindow s.lgOrigin 95 0 = false ∧ inWindow s.lgOrigin 672 575 = false := by decide

/-- V-X4: inside the window the cell is out of bounds. -/
theorem witness_LowDirectGraphicsIsWindowed_raises :
    let s := on (image 32 [(16, [0x01, 0xFF, 0xFF, 0xFF]), (26, [0x01]), (29, [0x01])])
    38 ≤ s.mem.size ∧ s.params.oobPolicy = .fatal ∧ inWindow s.lgOrigin 96 0 = true ∧
    s.mem.size ≤ lowCellAddress s.mem.registers s.lgOrigin 96 0 := by decide

theorem witness_LowPalettedGraphicsIsWindowed :
    let s := on (imageP4 5)
    38 ≤ s.mem.size ∧ inWindow s.lgOrigin 96 0 = true ∧ inWindow s.lgOrigin 671 575 = true ∧
    lowCellAddress s.mem.registers s.lgOrigin 671 575 < s.mem.size ∧
    entryAddress s.mem.registers 15 + 2 < s.mem.size ∧
    inWindow s.lgOrigin 95 0 = false ∧ entryAddress s.mem.registers 0 + 2 < s.mem.size := by decide

/-- Inside the window with the cell out of bounds, and inside and outside with palette entry 0 out of
bounds. -/
theorem witness_LowPalettedGraphicsIsWindowed_raises :
    let s := on (image 32 [(16, [0x05, 0xFF, 0xFF, 0xFF]), (26, [0x01]), (29, [0x01])])
    let u := on (image 32 [(16, [0x05, 0x64]), (20, [0x7E]), (26, [0x01]), (29, [0x01])])
    38 ≤ s.mem.size ∧ s.params.oobPolicy = .fatal ∧ inWindow s.lgOrigin 96 0 = true ∧
    s.mem.size ≤ lowCellAddress s.mem.registers s.lgOrigin 96 0 ∧
    38 ≤ u.mem.size ∧ u.params.oobPolicy = .fatal ∧ inWindow u.lgOrigin 96 0 = true ∧
    inWindow u.lgOrigin 95 0 = false ∧ lowCellAddress u.mem.registers u.lgOrigin 96 0 < u.mem.size ∧
    u.mem.size ≤ entryAddress u.mem.registers 0 + 2 := by decide

/-- The last glyph block, the last cell of either graphics geometry (V-G6). -/
theorem witness_OneBlockHasOneColour :
    1 / 2 = 0 / 2 ∧ (3 / 4 = 0 / 4 ∧ 7 / 4 = 4 / 4) ∧
    inWindow (on imageP1).lgOrigin 671 575 = true ∧
    Int.fdiv ((669 : Int) - (on imageP1).lgOrigin.1) 3 = Int.fdiv ((671 : Int) - 96) 3 ∧
    Int.fdiv ((573 : Int) - (on imageP1).lgOrigin.2) 3 = Int.fdiv ((575 : Int) - 0) 3 := by decide

/-- The window's edges and the cell of P4, and the lowest FALLBACK byte. -/
theorem witness_DispatchSelectsByTheFullByte :
    let s := on (imageP4 5)
    let r := s.mem.registers
    inWindow s.lgOrigin 671 575 = true ∧ lowCellAddress r s.lgOrigin 671 575 < s.mem.size ∧
    inWindow s.lgOrigin 672 575 = false ∧ highCellAddress r 4 4 < s.mem.size ∧
    8 ≤ (0x08#8).toNat := by decide

theorem witness_DispatchIsTheDecodedRoutine : 38 ≤ (on (image 10 [])).mem.size := by decide

theorem witness_DispatchCompletesOnInBoundsReads :
    (∀ a ∈ routineReads (imageP3 6) (imageP3 6).registers (on (imageP3 6)).lgOrigin 6 0 0,
      a < (on (imageP3 6)).mem.size) ∧
    (on imageP6).params.oobPolicy = .fatal ∧
    ∃ a ∈ routineReads imageP6 imageP6.registers (on imageP6).lgOrigin 3 0 4,
      (on imageP6).mem.size ≤ a := by decide

theorem witness_PixelWritesItsOwnPixel :
    0 < (on (imageP3 6) 1 1).outW ∧ 0 < (on (imageP3 6) 1 1).outH ∧
    ∀ a ∈ invocationReads (on (imageP3 6) 1 1) 0 0, a < (on (imageP3 6) 1 1).mem.size := by decide

/-- With no batch in flight, and with one. -/
theorem witness_FaultingPixelWritesNothing :
    ∀ s ∈ [on (image 9 []) 1 1, inFlight (image 9 []) 1],
      0 < s.outW ∧ 0 < s.outH ∧ s.params.oobPolicy = .fatal ∧
      ∃ a ∈ invocationReads s 0 0, s.mem.size ≤ a := by decide

theorem witness_FaultingPixelWritesNothing_batches :
    (on (image 9 []) 1 1).batch = none ∧ (inFlight (image 9 []) 1).batch ≠ none := by decide

theorem witness_InvocationRaisesIffANamedReadIsOutOfBounds :
    (on imageP6).params.oobPolicy = .fatal ∧
    (∃ a ∈ invocationReads (on imageP6) 0 4, (on imageP6).mem.size ≤ a) ∧
    (invocationReads (on (imageP3 6)) 0 0).length = 28 := by decide

/-- Two memories that differ in a byte no rule names for pixel (0,0). -/
theorem witness_ColourDependsOnNamedReadsOnly :
    let s := on imageP1
    let u := on (imageP1.write 101 0xFF)
    s.params = u.params ∧ s.outW = u.outW ∧ s.outH = u.outH ∧ s.mem.words = u.mem.words ∧
    (∀ a ∈ invocationReads s 0 0, a < s.mem.size ∧ s.mem.byteAt a = u.mem.byteAt a) ∧
    s.mem ≠ u.mem := by decide

/-- For the launch, the frame and the host's operations with no batch in flight. -/
theorem witness_LaunchMakesEveryPixelPending : (on imageP1).batch = none ∧ 1 ≤ 1 ∧ 1 ≤ 1 := by decide

theorem witness_AbandonEndsTheBatch :
    (inFlight imageP1 2).batch = some { pending := [(0, 0), (1, 0)] } := by decide

theorem witness_HostOperationsOutsideTheirPreconditions :
    (inFlight imageP1 2).batch ≠ none ∧ (on imageP1).batch = none ∧
    ¬(768 < (on imageP1).outW ∧ 0 < (on imageP1).outH) ∧
    (let s := { on imageP1 with inbox := [.store 128 0x03] }
     s.batch = none ∧ s.inbox = [.store 128 0x03] ∧ s.mem.size ≤ 128) := by decide

theorem witness_HostInputsAreTakenBetweenBatches :
    (let s := { on imageP1 with inbox := [.launch 1 1, .abandon] }
     s.batch = none ∧ s.inbox = [.launch 1 1, .abandon]) ∧
    (let s := { on imageP1 with inbox := [.launch 0 1] }
     s.batch = none ∧ s.inbox = [.launch 0 1]) ∧
    (let s := { on imageP1 with inbox := [.abandon] }
     s.batch = none ∧ s.inbox = [.abandon]) := by decide

/-- R145: a launch after a failed frame shows nothing of it. -/
theorem test_launch_after_failure :
    (match exec (.frame 1 5) (on imageP6) with
      | .next t => (t.oob, raisedBy (exec (.launch 1 1) t), endedBy (exec (.launch 1 1) t))
      | _ => (none, none, none)) = (some 128, none, none) := by decide

/-- P1 on a grid of 2 × 1. -/
theorem witness_FrameWithoutExceptionCompletes :
    (on imageP1).batch = none ∧
    ∀ px py, px < 2 → py < 1 → ∃ c, pixelColor (startBatch 2 1 (on imageP1)) px py = .ok c := by
  refine ⟨rfl, ?_⟩
  intro px py hx hy
  obtain rfl : py = 0 := by omega
  obtain rfl | rfl : px = 0 ∨ px = 1 := by omega
  · exact ⟨rgb 255 0 0, rfl⟩
  · exact ⟨rgb 255 0 0, rfl⟩

/-- P6 on a grid of 1 × 5: pixel (0,4) raises. -/
theorem witness_FrameWithAnExceptionFails :
    (on imageP6).batch = none ∧
    ∃ px py e, px < 1 ∧ py < 5 ∧ pixelColor (startBatch 1 5 (on imageP6)) px py = .error e :=
  ⟨rfl, 0, 4, .outOfBounds 128, by decide, by decide, rfl⟩

theorem witness_WriterContractMakesEveryFrameComplete :
    (on imageP1).batch = none ∧ writerContract imageP1 = true ∧ writerContract (imageP4 5) = true ∧
    writerContract (image 10 [(16, [0x08])]) = true := by decide

theorem witness_FrameForgetsEarlierBatches :
    let s := on imageP1
    let u := { on imageP1 with outcome := some .failed, free := 9 }
    s.mem = u.mem ∧ s.params = u.params ∧ (∃ s', exec (.frame 2 1) s = .next s') ∧
    ∃ u', exec (.frame 2 1) u = .next u' := ⟨rfl, rfl, ⟨_, rfl⟩, ⟨_, rfl⟩⟩

theorem witness_ExceptionDuringABatchFailsIt :
    (inFlight eightBytes 1).batch = some { pending := [(0, 0)] } ∧ Instr.wf (.peek8 8) = true ∧
    ∃ t, exec (.peek8 8) (inFlight eightBytes 1) = .next t ∧ t.oob ≠ none :=
  ⟨rfl, rfl, _, rfl, by decide⟩

theorem witness_NoOperationWritesMemory : ∃ t, exec (.pixel 0 0) (on imageP1) = .next t := ⟨_, rfl⟩

theorem witness_OperationsDeliverAValueOnly :
    ∃ t, exec .mode3 (on imageP1) = .next t ∧ t.oob = none := ⟨_, rfl, by decide⟩

/-- P1 on its last pending pixel. -/
theorem witness_StepRunsTheDecodedInstruction :
    let s := inFlight imageP1 1
    s.batch = some { pending := [(0, 0)] } ∧ (∀ rest, s.inbox ≠ .abandon :: rest) ∧
    nextPixel s.free [(0, 0)] = some (0, 0) ∧ 38 ≤ s.mem.size ∧
    decode [s.mem.byteAt 16] = .ok .mode3 ∧ Instr.wf .mode3 = true ∧
    ∃ t, exec .mode3 (issue (0, 0) { pending := [(0, 0)] } s) = .next t :=
  ⟨rfl, by simp [inFlight], rfl, by decide, rfl, rfl, _, rfl⟩

/-- A memory in canonical form. -/
theorem imageP1_wf : imageP1.wf := by decide

/-- P1 with a batch of one row of pixels in flight, none of them written. -/
theorem inFlight_inv (w : Nat) (hw : gridLegal w 1 = true) (inbox : List Input) :
    Inv (inFlight imageP1 w inbox) ∧ Painted (inFlight imageP1 w inbox) :=
  startBatch_inv imageP1_wf rfl hw

theorem witness_BatchStepIsOnePixel :
    Inv (inFlight imageP1 2) ∧ (inFlight imageP1 2).batch = some { pending := [(0, 0), (1, 0)] } ∧
    ∀ rest, (inFlight imageP1 2).inbox ≠ .abandon :: rest :=
  ⟨(inFlight_inv 2 rfl []).1, rfl, by simp [inFlight]⟩

/-- A batch in flight with a store waiting. -/
theorem witness_MemoryIsASnapshotDuringABatch :
    (∃ b, (inFlight imageP1 1 [.store 100 0x1C]).batch = some b) ∧
    ∃ t, step (inFlight imageP1 1 [.store 100 0x1C]) = .next t := ⟨⟨_, rfl⟩, ⟨_, rfl⟩⟩

theorem witness_BatchStepsNeverStop :
    Inv (inFlight imageP1 2 [.store 100 0x1C]) ∧
    (inFlight imageP1 2 [.store 100 0x1C]).batch = some { pending := [(0, 0), (1, 0)] } :=
  ⟨(inFlight_inv 2 rfl _).1, rfl⟩

theorem witness_ShortMemoryFailsEveryBatch :
    let s := inFlight (image 9 []) 1
    s.batch = some { pending := [(0, 0)] } ∧ (∀ rest, s.inbox ≠ .abandon :: rest) ∧
    [((0 : Nat), (0 : Nat))] ≠ [] ∧ s.params.oobPolicy = .fatal ∧ s.mem.size < 38 :=
  ⟨rfl, by simp [inFlight], by simp, rfl, by decide⟩

/-- The last byte of the memory. -/
theorem witness_WriterStoresBetweenBatches :
    let s := { on imageP1 with inbox := [.store 127 0x03] }
    s.mem.wf ∧ s.batch = none ∧ s.inbox = [.store 127 0x03] ∧ 127 < s.mem.size :=
  ⟨imageP1_wf, rfl, rfl, by decide⟩

theorem witness_AbandonmentIsTakenDuringABatch :
    (∃ b, (inFlight imageP1 2 [.abandon]).batch = some b) ∧
    (inFlight imageP1 2 [.abandon]).inbox = [.abandon] := ⟨⟨_, rfl⟩, rfl⟩

theorem witness_BlockIsIdleBetweenBatches :
    State.reset.batch = none ∧ State.reset.inbox = [] := ⟨rfl, rfl⟩

theorem witness_EveryStepKeepsTheInvariant :
    Inv (inFlight imageP1 2 [.abandon]) ∧ ∃ t, step (inFlight imageP1 2 [.abandon]) = .next t :=
  ⟨(inFlight_inv 2 rfl _).1, _, rfl⟩

/-- A batch with one pixel, pending, and the step that completes it. -/
theorem witness_CompletedBatchShowsThePixelFunction :
    let s := inFlight imageP1 1
    Inv s ∧ Painted s ∧ s.batch ≠ none ∧ ∃ t, step s = .next t ∧ t.outcome = some .completed ∧
      0 < t.outW ∧ 0 < t.outH := by
  exact ⟨(inFlight_inv 1 rfl _).1, (inFlight_inv 1 rfl _).2, by decide, _, rfl, rfl, by decide, by decide⟩

theorem witness_EveryOrderOfABatchGivesTheFrame :
    (on imageP1).inbox = [] ∧ (∃ l, exec (.launch 2 1) (on imageP1) = .next l) ∧
    ∃ f, exec (.frame 2 1) (on imageP1) = .next f := ⟨rfl, ⟨_, rfl⟩, ⟨_, rfl⟩⟩

theorem witness_DecodeOfEncode :
    Instr.encoded (.fallback8 7#3) = true ∧ Instr.encoded (.peek8 0) = false := ⟨rfl, rfl⟩

end Sys2Proof.Tests
end

section
/-! PROOFS. byte_decoder (40_byte_decoder.md): what `exec` answers for `peek8` and `peek24`, in bounds
and under `fatal`, and the statements that follow. -/

namespace Sys2Proof.Machine

/-! ### Running `peek8` and `peek24` -/

theorem exec_peek8 (addr : Nat) (s : State) :
    exec (.peek8 addr) s = deliver ((peek8 s.params s.mem addr).map Result.byte) s := rfl

theorem exec_peek24 (addr : Nat) (s : State) :
    exec (.peek24 addr) s = deliver ((peek24 s.params s.mem addr).map Result.word) s := rfl

/-- In bounds `peek8` delivers its byte, whatever the policy (R70). -/
theorem exec_peek8_of_lt {s : State} {addr : Nat} (h : addr < s.mem.size) :
    exec (.peek8 addr) s = .next (s.withResult (.byte (s.mem.byteAt addr))) := by
  rw [exec_peek8, peek8_of_lt h, Except.map, deliver_ok]

/-- Under `fatal`, out of bounds, `peek8` takes the exception with its own address (R70, R140). -/
theorem exec_peek8_fatal {s : State} {addr : Nat} (hP : s.params.oobPolicy = .fatal)
    (h : s.mem.size ≤ addr) :
    exec (.peek8 addr) s = .next (takeException (.outOfBounds addr) s) := by
  rw [exec_peek8, peek8_fatal hP h, Except.map, deliver_error]

/-- With its three bytes in bounds `peek24` delivers them packed, whatever the policy (R71). -/
theorem exec_peek24_of_lt {s : State} {addr : Nat} (h : addr + 2 < s.mem.size) :
    exec (.peek24 addr) s = .next (s.withResult (.word
      (packBytes (s.mem.byteAt addr) (s.mem.byteAt (addr + 1)) (s.mem.byteAt (addr + 2))))) := by
  rw [exec_peek24, peek24_of_lt h, Except.map, deliver_ok]

/-- Under `fatal`, with one of its bytes out of bounds, `peek24` takes the exception with the lowest
address that is (R71, R140): its own, or the first past the end of the memory. -/
theorem exec_peek24_fatal {s : State} {addr : Nat} (hP : s.params.oobPolicy = .fatal)
    (h : s.mem.size ≤ addr + 2) :
    exec (.peek24 addr) s = .next (takeException (.outOfBounds (max addr s.mem.size)) s) := by
  rw [exec_peek24, peek24_fatal hP h, Except.map, deliver_error]

/-- The lowest of three consecutive addresses at or past `size`, the last of which is. -/
theorem lowest_outOfBounds_of_three {addr size : Nat} (h : size ≤ addr + 2) :
    (if size ≤ addr then addr else if size ≤ addr + 1 then addr + 1 else addr + 2) =
      max addr size := by
  split_ifs <;> omega

/-! ### The statements -/

/-- Settles O2: in bounds the packed bytes are the three shifted bytes joined; out of bounds the address
of the exception is the lowest of the three that is. -/
theorem peek24ReadsThreeBytesOrRaises : Obligations.Peek24ReadsThreeBytesOrRaises := by
  intro s addr
  constructor
  · intro hlt
    exact exec_peek24_of_lt hlt
  · intro hP hge
    refine ⟨_, exec_peek24_fatal hP hge, takeException_result _ _, ?_⟩
    rw [takeException_oob, lowest_outOfBounds_of_three hge]

/-- Settles O1: in bounds the byte at `addr` is its lane of its word (`lane_word`); out of bounds the
exception has `addr` itself. -/
theorem peek8ReadsItsLaneOrRaises : Obligations.Peek8ReadsItsLaneOrRaises := by
  intro s addr
  constructor
  · intro hlt
    rw [exec_peek8_of_lt hlt, ← lane_word]
    rfl
  · intro hP hge
    exact ⟨_, exec_peek8_fatal hP hge, takeException_result _ _, takeException_oob _ _⟩

end Sys2Proof.Machine
end

section
/-! PROOFS. register_block (41_register_block.md): what `exec` answers for `read_display_registers`, and
the statement that follows. -/

namespace Sys2Proof.Machine

/-! ### Running `read_display_registers` -/

theorem exec_readDisplayRegisters (s : State) :
    exec .readDisplayRegisters s =
      deliver ((readDisplayRegisters s.params s.mem).map fun r => Result.registers r.1 r.2) s := rfl

/-- With bytes 16 to 37 in bounds the parse delivers the mode byte and the control block, whatever the
policy and whatever they hold (R80, R81). -/
theorem exec_readDisplayRegisters_of_le {s : State} (h : 38 ≤ s.mem.size) :
    exec .readDisplayRegisters s =
      .next (s.withResult (.registers s.mem.mode s.mem.registers)) := by
  rw [exec_readDisplayRegisters, readDisplayRegisters_of_le h, Except.map, deliver_ok]

/-- Under `fatal`, with a control byte out of bounds, the parse takes the exception (R80, R140). -/
theorem exec_readDisplayRegisters_fatal {s : State} (hP : s.params.oobPolicy = .fatal)
    (h : s.mem.size < 38) :
    ∃ a, exec .readDisplayRegisters s = .next (takeException (.outOfBounds a) s) := by
  obtain ⟨a, ha⟩ := readDisplayRegisters_fatal hP h
  exact ⟨a, by rw [exec_readDisplayRegisters, ha, Except.map, deliver_error]⟩

/-! ### The statement -/

/-- Settles O5: `Memory.mode` and `Memory.registers` are the bytes the statement writes out, each field
its three bytes with the lowest address least significant (R52); on a shorter memory the exception clears
the result and sets the exception port. -/
theorem registerParseReadsTheControlBlock : Obligations.RegisterParseReadsTheControlBlock := by
  intro s
  constructor
  · intro hsize
    exact exec_readDisplayRegisters_of_le hsize
  · intro hP hshort
    obtain ⟨a, ha⟩ := exec_readDisplayRegisters_fatal hP hshort
    refine ⟨_, ha, takeException_result _ _, ?_⟩
    rw [takeException_oob, Option.isSome_some]

end Sys2Proof.Machine
end

section
/-! PROOFS. address_translator (42_address_translator.md): the address `to_byte_address` forms, its range
and its periods, and the statement that follows. -/

namespace Sys2Proof.Machine

/-! ### The remainder -/

theorem modulo_of_pos (a : Nat) {n : Nat} (h : 0 < n) : modulo a n = a % n :=
  if_neg h.ne'

/-- The remainder has the period `n` even where `n = 0`, its value there (R87) left open. -/
theorem modulo_add_self (a n : Nat) : modulo (a + n) n = modulo a n := by
  obtain rfl | hn := n.eq_zero_or_pos
  · rw [Nat.add_zero]
  · rw [modulo_of_pos _ hn, modulo_of_pos _ hn, Nat.add_mod_right]

/-! ### The address -/

theorem exec_toByteAddress (x y : Nat) (regs : RegisterBlock) (s : State) :
    exec (.toByteAddress x y regs) s =
      .next (s.withResult (.address (toByteAddress x y regs))) := rfl

theorem toByteAddress_eq (x y : Nat) (regs : RegisterBlock) :
    toByteAddress x y regs =
      modulo (x + regs.colOffset.toNat) regs.width.toNat +
        (modulo (y + regs.rowOffset.toNat) regs.height.toNat * regs.width.toNat +
          regs.screen.toNat) := rfl

theorem screen_le_toByteAddress (x y : Nat) (regs : RegisterBlock) :
    regs.screen.toNat ≤ toByteAddress x y regs := by
  rw [toByteAddress_eq]
  omega

/-- The offset of a cell of a row-major plane lies in the plane. -/
theorem cellOffset_lt {col row width height : Nat} (hcol : col < width) (hrow : row < height) :
    col + row * width < width * height :=
  calc col + row * width
      < width + row * width := Nat.add_lt_add_right hcol _
    _ = width * (row + 1) := by ring
    _ ≤ width * height := Nat.mul_le_mul_left width hrow

theorem toByteAddress_lt (x y : Nat) {regs : RegisterBlock} (hw : 0 < regs.width.toNat)
    (hh : 0 < regs.height.toNat) :
    toByteAddress x y regs < regs.screen.toNat + regs.width.toNat * regs.height.toNat := by
  have hcell := cellOffset_lt (Nat.mod_lt (x + regs.colOffset.toNat) hw)
    (Nat.mod_lt (y + regs.rowOffset.toNat) hh)
  rw [toByteAddress_eq, modulo_of_pos _ hw, modulo_of_pos _ hh]
  omega

/-- The coordinates enter the address through their scrolled remainders alone (R86). -/
theorem toByteAddress_congr {x y x' y' : Nat} {regs : RegisterBlock} (hw : 0 < regs.width.toNat)
    (hh : 0 < regs.height.toNat)
    (hx : (x' + regs.colOffset.toNat) % regs.width.toNat =
      (x + regs.colOffset.toNat) % regs.width.toNat)
    (hy : (y' + regs.rowOffset.toNat) % regs.height.toNat =
      (y + regs.rowOffset.toNat) % regs.height.toNat) :
    toByteAddress x' y' regs = toByteAddress x y regs := by
  simp only [toByteAddress_eq, modulo_of_pos _ hw, modulo_of_pos _ hh, hx, hy]

/-- Scrolling by the whole height is not scrolling, whatever the dimensions (R86). -/
theorem toByteAddress_rowOffset_height (x y : Nat) (regs : RegisterBlock) :
    toByteAddress x y { regs with rowOffset := regs.height } =
      toByteAddress x y { regs with rowOffset := 0#24 } := by
  simp only [toByteAddress_eq, modulo_add_self, BitVec.toNat_zero, Nat.add_zero]

/-- Scrolling by the whole width is not scrolling, whatever the dimensions (R86). -/
theorem toByteAddress_colOffset_width (x y : Nat) (regs : RegisterBlock) :
    toByteAddress x y { regs with colOffset := regs.width } =
      toByteAddress x y { regs with colOffset := 0#24 } := by
  simp only [toByteAddress_eq, modulo_add_self, BitVec.toNat_zero, Nat.add_zero]

/-! ### The statement -/

/-- Settles O8: the operation delivers `toByteAddress` and reads nothing of the state, so each part is
the fact about that address: its range, its dependence on the remainders, its two periods. -/
theorem translationIsToroidal : Obligations.TranslationIsToroidal := by
  intro s x y regs hwidth hheight
  have hw : 0 < regs.width.toNat := by bv_omega
  have hh : 0 < regs.height.toNat := by bv_omega
  refine ⟨⟨toByteAddress x y regs, exec_toByteAddress x y regs s, screen_le_toByteAddress x y regs,
    toByteAddress_lt x y hw hh⟩, fun x' y' hx hy => ?dependence, ?rowPeriod, ?colPeriod⟩
  case dependence =>
    rw [exec_toByteAddress, exec_toByteAddress, toByteAddress_congr hw hh hx hy]
  case rowPeriod =>
    rw [exec_toByteAddress, exec_toByteAddress, toByteAddress_rowOffset_height]
  case colPeriod =>
    rw [exec_toByteAddress, exec_toByteAddress, toByteAddress_colOffset_width]

end Sys2Proof.Machine
end

section
/-! PROOFS. color_decoder (43_color_decoder.md): what `exec` answers for `to_color`, `to_24_color` and
`palette_lookup`, and the statements that follow. -/

namespace Sys2Proof.Machine

/-! ### `palette_lookup` -/

theorem exec_paletteLookup (index : Nat) (regs : RegisterBlock) (s : State) :
    exec (.paletteLookup index regs) s =
      deliver ((paletteLookup s.params s.mem index regs).map Result.color) s := rfl

/-- With its entry in bounds `palette_lookup` delivers the entry's colour, whatever the policy (R94). -/
theorem exec_paletteLookup_of_lt {s : State} {index : Nat} {regs : RegisterBlock}
    (h : entryAddress regs index + 2 < s.mem.size) :
    exec (.paletteLookup index regs) s =
      .next (s.withResult (.color (entryColor s.mem regs index))) := by
  rw [exec_paletteLookup, paletteLookup_of_lt h, Except.map, deliver_ok]

/-- Under `fatal`, with a byte of its entry out of bounds, `palette_lookup` takes the exception of its
24-bit read (R94, R140). -/
theorem exec_paletteLookup_fatal {s : State} {index : Nat} {regs : RegisterBlock}
    (hP : s.params.oobPolicy = .fatal) (h : s.mem.size ≤ entryAddress regs index + 2) :
    exec (.paletteLookup index regs) s =
      .next (takeException (.outOfBounds (max (entryAddress regs index) s.mem.size)) s) := by
  rw [exec_paletteLookup, paletteLookup_fatal hP h, Except.map, deliver_error]

/-- The index counts modulo 16, whatever the policy and the memory (R94). -/
theorem paletteLookup_mod (P : Params) (m : Memory) (index : Nat) (regs : RegisterBlock) :
    paletteLookup P m (index % 16) regs = paletteLookup P m index regs := by
  simp only [paletteLookup, paletteEntries, Nat.mod_mod]

/-- Settles O13: the address in the statement is `entryAddress` and the colour is `entryColor`; out of
bounds the exception clears the result and sets the exception port. -/
theorem paletteLookupReadsOneEntry : Obligations.PaletteLookupReadsOneEntry := by
  intro s index regs a
  refine ⟨fun hlt => exec_paletteLookup_of_lt hlt, fun hP hge => ?raises, ?periodic⟩
  case raises =>
    refine ⟨_, exec_paletteLookup_fatal hP hge, takeException_result _ _, ?_⟩
    rw [takeException_oob, Option.isSome_some]
  case periodic =>
    rw [exec_paletteLookup, exec_paletteLookup, paletteLookup_mod]

/-! ### `to_color` -/

theorem exec_toColor (b : Byte) (s : State) :
    exec (.toColor b) s = .next (s.withResult (.color (toColor b))) := rfl

/-- The three fields of F-RGB332 (R53) tile the byte, so each is expanded on its own (R90). -/
theorem toColor_append (r g : BitVec 3) (b : BitVec 2) :
    toColor (r ++ g ++ b) = { r := expand3 r, g := expand3 g, b := expand2 b, a := 255#8 } := by
  have hr : rgbRed (r ++ g ++ b) = r := by
    rw [rgbRed, BitVec.extractLsb'_append_eq_of_le (by decide),
      BitVec.extractLsb'_append_eq_of_le (by decide)]
    exact BitVec.extractLsb'_eq_self
  have hg : rgbGreen (r ++ g ++ b) = g := by
    rw [rgbGreen, BitVec.extractLsb'_append_eq_of_le (by decide),
      BitVec.extractLsb'_append_eq_of_add_le (by decide)]
    exact BitVec.extractLsb'_eq_self
  have hb : rgbBlue (r ++ g ++ b) = b := by
    rw [rgbBlue, BitVec.extractLsb'_append_eq_of_add_le (by decide)]
    exact BitVec.extractLsb'_eq_self
  rw [toColor, hr, hg, hb]

/-- Bit replication keeps both endpoints of a 3-bit channel (R91, R92). -/
theorem expand3_fill (on : Bool) : expand3 (BitVec.fill 3 on) = BitVec.fill 8 on := by
  revert on; decide

/-- Bit replication keeps both endpoints of the 2-bit channel (R91, R92). -/
theorem expand2_fill (on : Bool) : expand2 (BitVec.fill 2 on) = BitVec.fill 8 on := by
  revert on; decide

/-- A corner byte, each field all zeros or all ones, shows each channel all zeros or all ones (R92). -/
theorem exec_toColor_corner (s : State) (r g b : Bool) :
    exec (.toColor (BitVec.fill 3 r ++ BitVec.fill 3 g ++ BitVec.fill 2 b)) s =
      .next (s.withResult (.color
        { r := BitVec.fill 8 r, g := BitVec.fill 8 g, b := BitVec.fill 8 b, a := 255#8 })) := by
  rw [exec_toColor, toColor_append, expand3_fill, expand3_fill, expand2_fill]

/-- Settles O10: the eight bytes of the table are the corner bytes, in the order of their saturated
channels. -/
theorem cornerBytesAreSaturated : Obligations.CornerBytesAreSaturated := by
  intro s
  simp only [List.forall_mem_cons]
  exact ⟨exec_toColor_corner s false false false, exec_toColor_corner s false false true,
    exec_toColor_corner s false true false, exec_toColor_corner s false true true,
    exec_toColor_corner s true false false, exec_toColor_corner s true false true,
    exec_toColor_corner s true true false, exec_toColor_corner s true true true,
    List.forall_mem_nil _⟩

/-! ### `to_24_color` -/

theorem exec_to24Color (w : Word) (s : State) :
    exec (.to24Color w) s = .next (s.withResult (.color (to24Color w))) := rfl

/-- Byte `k` of a word is its bits `8 * k` to `8 * k + 7`. -/
theorem lane_eq_extractLsb' (w : Word) (k : Nat) : lane w k = w.extractLsb' (8 * k) 8 := by
  rw [lane, BitVec.setWidth_ushiftRight_eq_extractLsb]

/-- Settles O12: the components are the lanes 0, 1 and 2 of the word, so lane 3 does not count. -/
theorem to24ColorTakesThreeBytes : Obligations.To24ColorTakesThreeBytes := by
  intro s w
  rw [exec_to24Color, to24Color, lane_eq_extractLsb', lane_eq_extractLsb', lane_eq_extractLsb']
  rfl

end Sys2Proof.Machine
end

section
/-! PROOFS. glyph_sampler (44_glyph_sampler.md): what `exec` answers for `text_pixel_set`, and the
statement that follows. -/

namespace Sys2Proof.Machine

/-! ### `text_pixel_set` -/

theorem exec_textPixelSet (g : Byte) (col : BitVec 3) (s : State) :
    exec (.textPixelSet g col) s = .next (s.withResult (.bit (textPixelSet g col))) := rfl

/-- A bit, widened to a byte, is 1 exactly where it is set. -/
theorem setWidth_ofBool_eq_one_iff (b : Bool) :
    (BitVec.ofBool b).setWidth 8 = 1#8 ↔ b = true := by
  revert b; decide

/-- Shifting bit `k` of a byte down to bit 0 and masking the rest tests bit `k`. -/
theorem ushiftRight_and_one_eq_one_iff (g : Byte) (k : Nat) :
    (g >>> k) &&& 1#8 = 1#8 ↔ g.getLsbD k = true := by
  rw [BitVec.and_one_eq_setWidth_ofBool_getLsbD, BitVec.getLsbD_ushiftRight, Nat.add_zero,
    setWidth_ofBool_eq_one_iff]

/-- The glyph bit of a column, as the shift and mask the spec writes (R100). -/
theorem textPixelSet_eq (g : Byte) (col : BitVec 3) :
    textPixelSet g col = decide ((g >>> (7 - col.toNat)) &&& 1#8 = 1#8) := by
  rw [textPixelSet, Bool.eq_iff_iff, decide_eq_true_iff, ushiftRight_and_one_eq_one_iff]

/-! ### The statement -/

/-- Settles O14: the operation reads nothing of the state and delivers bit `7 - col`, which the shift and
the mask isolate. -/
theorem textPixelSetTestsOneBit : Obligations.TextPixelSetTestsOneBit := by
  intro s g col
  rw [exec_textPixelSet, textPixelSet_eq]
  rfl

end Sys2Proof.Machine
end

section
/-! PROOFS. mode_dispatcher_mux (45_mode_dispatcher.md): what `exec` answers for FALLBACK, and the statement
that follows. -/

namespace Sys2Proof.Machine

/-! ### FALLBACK -/

/-- The rows differ only in their open bits, which the operation does not look at (R51, R105). -/
theorem exec_fallbackRow (s : State) (x7 : BitVec 7) (x6 : BitVec 6) (x5 : BitVec 5) (x4 : BitVec 4)
    (x3 : BitVec 3) :
    ∀ i ∈ [Instr.fallback128 x7, .fallback64 x6, .fallback32 x5, .fallback16 x4, .fallback8 x3],
      exec i s = deliver (fallbackColor.map Result.color) s := by
  simp only [List.forall_mem_cons]
  exact ⟨rfl, rfl, rfl, rfl, rfl, List.forall_mem_nil _⟩

/-- FALLBACK has no access that could raise, so it always ends with its colour (R105). -/
theorem deliver_fallbackColor (s : State) :
    deliver (fallbackColor.map Result.color) s =
      .next (s.withResult (.color Config.fallbackColor)) := by
  rw [fallbackColor, Except.map, deliver_ok]

/-! ### The statement -/

/-- Settles O25: the five rows run one operation, and that operation delivers the open colour in every
state. -/
theorem fallbackShowsTheFallbackColour : Obligations.FallbackShowsTheFallbackColour := by
  intro s x7 x6 x5 x4 x3 i hi
  calc exec i s
    _ = deliver (fallbackColor.map Result.color) s := exec_fallbackRow s x7 x6 x5 x4 x3 i hi
    _ = .next (s.withResult (.color Config.fallbackColor)) := deliver_fallbackColor s

end Sys2Proof.Machine
end

section
/-! PROOFS. The mode byte (F-MODE, 30_encoding.md): decoding what the opcode table encodes, encoding what a
byte decodes to, and the statements that follow. -/

namespace Sys2Proof.Machine

/-! ### The five FALLBACK rows -/

theorem decodeMode_fallback128 (x : BitVec 7) : decodeMode (0b1#1 ++ x) = .fallback128 x := by
  revert x; decide

theorem decodeMode_fallback64 (x : BitVec 6) : decodeMode (0b01#2 ++ x) = .fallback64 x := by
  revert x; decide

theorem decodeMode_fallback32 (x : BitVec 5) : decodeMode (0b001#3 ++ x) = .fallback32 x := by
  revert x; decide

theorem decodeMode_fallback16 (x : BitVec 4) : decodeMode (0b0001#4 ++ x) = .fallback16 x := by
  revert x; decide

theorem decodeMode_fallback8 (x : BitVec 3) : decodeMode (0b00001#5 ++ x) = .fallback8 x := by
  revert x; decide

/-! ### Both round trips -/

theorem decode_singleton (b : Byte) : decode [b] = .ok (decodeMode b) := rfl

theorem decode_encode {i : Instr} (h : i.encoded = true) : decode (encode i) = .ok i := by
  cases i with
  | mode0 | mode1 | mode2 | mode3 | mode4 | mode5 | mode6 | mode7 => rfl
  | fallback128 x => rw [encode, decode_singleton, decodeMode_fallback128]
  | fallback64 x => rw [encode, decode_singleton, decodeMode_fallback64]
  | fallback32 x => rw [encode, decode_singleton, decodeMode_fallback32]
  | fallback16 x => rw [encode, decode_singleton, decodeMode_fallback16]
  | fallback8 x => rw [encode, decode_singleton, decodeMode_fallback8]
  | _ => cases h

theorem encode_eq_nil {i : Instr} (h : i.encoded = false) : encode i = [] := by
  cases i with
  | mode0 | mode1 | mode2 | mode3 | mode4 | mode5 | mode6 | mode7 => cases h
  | fallback128 x | fallback64 x | fallback32 x | fallback16 x | fallback8 x => cases h
  | _ => rfl

theorem encode_decodeMode (b : Byte) : encode (decodeMode b) = [b] := by
  revert b; decide

theorem encoded_decodeMode (b : Byte) : (decodeMode b).encoded = true := by
  revert b; decide

/-- Only one instruction has a given mode byte: the decoder answers it. -/
theorem eq_decodeMode_of_encode {i : Instr} {b : Byte} (h : encode i = [b]) : i = decodeMode b := by
  cases he : i.encoded with
  | false => simp [encode_eq_nil he] at h
  | true =>
    have hd := decode_encode he
    rw [h, decode_singleton] at hd
    exact (Except.ok.inj hd).symm

/-- The law of the format, over all instructions: the one byte of an encoded one lies in one row. -/
theorem rowCounts_of_encoded {i : Instr} (h : i.encoded = true) : Laws.ModeFormat.rowCounts i = [1] := by
  have law : Laws.ModeFormat.Statement i := by
    cases i with
    | mode0 => exact Laws.ModeFormat.mode0
    | mode1 => exact Laws.ModeFormat.mode1
    | mode2 => exact Laws.ModeFormat.mode2
    | mode3 => exact Laws.ModeFormat.mode3
    | mode4 => exact Laws.ModeFormat.mode4
    | mode5 => exact Laws.ModeFormat.mode5
    | mode6 => exact Laws.ModeFormat.mode6
    | mode7 => exact Laws.ModeFormat.mode7
    | fallback128 x => exact Laws.ModeFormat.fallback128 x
    | fallback64 x => exact Laws.ModeFormat.fallback64 x
    | fallback32 x => exact Laws.ModeFormat.fallback32 x
    | fallback16 x => exact Laws.ModeFormat.fallback16 x
    | fallback8 x => exact Laws.ModeFormat.fallback8 x
    | _ => cases h
  simpa only [Laws.ModeFormat.Statement, h, if_true] using law

/-! ### The statements -/

/-- Settles O57: each FALLBACK row gives its open bits back, each of the other rows is one byte. -/
theorem decodeOfEncode : Obligations.DecodeOfEncode := fun _ => ⟨decode_encode, encode_eq_nil⟩

/-- Settles O58: uniqueness is the other round trip, and the number of rows is the law of the format for
the instruction the byte decodes to. -/
theorem everyByteIsOneModeByte : Obligations.EveryByteIsOneModeByte := by
  intro b
  have hrows := rowCounts_of_encoded (encoded_decodeMode b)
  rw [Laws.ModeFormat.rowCounts, encode_decodeMode, List.map_singleton] at hrows
  exact ⟨encode_decodeMode b, encoded_decodeMode b, fun _ => eq_decodeMode_of_encode,
    List.head_eq_of_cons_eq hrows⟩

/-- Settles O56: each of the six bytes is the encoding of its instruction, so it decodes to it. -/
theorem sampleModeBytesDecode : Obligations.SampleModeBytesDecode :=
  ⟨decode_encode (i := .mode0) rfl, decode_encode (i := .mode3) rfl, decode_encode (i := .mode5) rfl,
    decode_encode (i := .mode6) rfl, decode_encode (i := .fallback128 0b0000011#7) rfl,
    decode_encode (i := .fallback8 0b000#3) rfl⟩

end Sys2Proof.Machine
end

section
/-! PROOFS. The invariants of a run (60_exceptions.md, batches and completion): what an invocation leaves
of the surface and of the pending coordinates, and the statements that follow. -/

namespace Sys2Proof.Machine

/-! ### After one invocation -/

/-- The state after the invocation of `p`, of the batch `b`, has delivered `c`: what a step goes on with
while other invocations are pending, and completes otherwise (`invoke_answers`). -/
def afterInvocation (p : Nat × Nat) (b : Batch) (c : Color) (s : State) : State :=
  ((issue p b s).withResult (.color c)).setPixel p.1 p.2 c

@[simp] theorem afterInvocation_outW (p : Nat × Nat) (b : Batch) (c : Color) (s : State) :
    (afterInvocation p b c s).outW = s.outW := rfl

@[simp] theorem afterInvocation_batch (p : Nat × Nat) (b : Batch) (c : Color) (s : State) :
    (afterInvocation p b c s).batch = some { pending := b.pending.erase p } := rfl

@[simp] theorem afterInvocation_outcome (p : Nat × Nat) (b : Batch) (c : Color) (s : State) :
    (afterInvocation p b c s).outcome = s.outcome := rfl

theorem afterInvocation_pixels (p : Nat × Nat) (b : Batch) (c : Color) (s : State) :
    (afterInvocation p b c s).out.pixels =
      setEntry (pixelIndex s.outW p.1 p.2) c s.out.pixels := rfl

/-- Everything a step of a batch with a pending coordinate can do while the host does not abandon it: fail
at the exception of an invocation, complete with the last one, or go on. -/
theorem invoke_answers {b : Batch} (s : State) (hne : b.pending ≠ []) :
    ∃ p ∈ b.pending,
      (∃ e, pixelColor s p.1 p.2 = .error e ∧ invoke b s = .next (takeException e (issue p b s))) ∨
      ∃ c, pixelColor s p.1 p.2 = .ok c ∧
        ((b.pending.erase p = [] ∧ invoke b s = .next (completeBatch (afterInvocation p b c s))) ∨
          (b.pending.erase p ≠ [] ∧ invoke b s = .next (afterInvocation p b c s))) := by
  obtain ⟨hnil, -⟩ | ⟨p, hp, -, ⟨c, hc, hinvoke⟩ | ⟨e, he, hinvoke⟩⟩ := invoke_cases b s
  · exact absurd hnil hne
  · refine ⟨p, hp, .inr ⟨c, hc, ?_⟩⟩
    rw [retire_color c (issue_batch p b s)] at hinvoke
    by_cases hlast : b.pending.erase p = []
    · exact .inl ⟨hlast, by simpa [afterInvocation, hlast] using hinvoke⟩
    · exact .inr ⟨hlast, by simpa [afterInvocation, hlast] using hinvoke⟩
  · exact ⟨p, hp, .inl ⟨e, he, hinvoke⟩⟩

/-! ### The pixels of a grid -/

theorem pixelIndex_lt {w h x y : Nat} (hx : x < w) (hy : y < h) : pixelIndex w x y < w * h := by
  rw [pixelIndex, Nat.add_comm]
  exact cellOffset_lt hx hy

theorem pixelIndex_eq_iff {s : State} {x y : Nat} {p : Nat × Nat} (hxy : s.onGrid x y = true)
    (hp : s.onGrid p.1 p.2 = true) :
    pixelIndex s.outW x y = pixelIndex s.outW p.1 p.2 ↔ (x, y) = p := by
  constructor
  · intro h
    obtain ⟨h1, h2⟩ := pixelIndex_inj (onGrid_iff.1 hxy).1 (onGrid_iff.1 hp).1 h
    exact Prod.ext h1 h2
  · rintro rfl
    rfl

/-- An invocation writes its own pixel and no other one. -/
theorem written_afterInvocation {s : State} {p : Nat × Nat} (b : Batch) (c : Color) {x y : Nat}
    (hp : s.onGrid p.1 p.2 = true) (hxy : s.onGrid x y = true) :
    (afterInvocation p b c s).written x y ↔ (x, y) = p ∨ s.written x y := by
  rw [State.written, afterInvocation_pixels, afterInvocation_outW, entryAt_setEntry,
    ← pixelIndex_eq_iff hxy hp]
  split <;> simp_all [State.written]

/-- What a pixel of the grid shows after an invocation. -/
theorem colorAt_afterInvocation {s : State} {p : Nat × Nat} (b : Batch) (c : Color) {x y : Nat}
    (hp : s.onGrid p.1 p.2 = true) (hxy : s.onGrid x y = true) :
    (afterInvocation p b c s).out.colorAt (pixelIndex s.outW x y) =
      if (x, y) = p then c else s.out.colorAt (pixelIndex s.outW x y) := by
  rw [afterInvocation, colorAt_setPixel]
  simp only [withResult_outW, withResult_out, issue_outW, issue_out, pixelIndex_eq_iff hxy hp]

/-- The surface of a grid stays one: its numbers rise and belong to the grid (R147). -/
theorem surface_afterInvocation {s : State} {p : Nat × Nat} (b : Batch) (c : Color)
    (hs : Rising s.out.pixels ∧ ∀ e ∈ s.out.pixels, e.1 < s.outW * s.outH)
    (hp : s.onGrid p.1 p.2 = true) :
    Rising (afterInvocation p b c s).out.pixels ∧
      ∀ e ∈ (afterInvocation p b c s).out.pixels, e.1 < s.outW * s.outH := by
  obtain ⟨hrising, hgrid⟩ := hs
  rw [afterInvocation_pixels]
  refine ⟨rising_setEntry _ c hrising, fun e he => ?_⟩
  obtain ⟨hx, hy⟩ := onGrid_iff.1 hp
  rcases mem_setEntry he with rfl | he
  · exact pixelIndex_lt hx hy
  · exact hgrid e he

/-! ### The invariant of a legal state -/

/-- A batch that ends without a frame leaves a legal state (R148, R149). -/
theorem inv_endWithoutFrame {s : State} {o : BatchOutcome} (hm : s.mem.wf)
    (hs : sentinelLegal s.params s.mem = true) (hg : gridLegal s.outW s.outH = true)
    (ho : o ≠ .completed) : Inv (endWithoutFrame o s) where
  memory := hm
  sentinel := hs
  grid := hg
  surface := ⟨List.Pairwise.nil, fun _ he => absurd he List.not_mem_nil⟩
  inFlight _ hb := by cases hb
  completed _ hc := absurd (Option.some.inj hc) ho

/-- An exception raised during a batch leaves a legal state (R148). -/
theorem inv_takeException {s : State} {b : Batch} (e : Exception) (hm : s.mem.wf)
    (hs : sentinelLegal s.params s.mem = true) (hg : gridLegal s.outW s.outH = true)
    (hb : s.batch = some b) : Inv (takeException e s) := by
  obtain ⟨a, -, hnone, -⟩ | ⟨a, b', -, -, h⟩ := takeException_cases e s
  · rw [hb] at hnone
    cases hnone
  · rw [h]
    exact inv_endWithoutFrame hm hs hg (by decide)

/-- An invocation that is not the last one leaves a legal state: its coordinate has left the pending ones
and its pixel is written. -/
theorem inv_afterInvocation {s : State} {b : Batch} {p : Nat × Nat} (c : Color) (h : Inv s)
    (hb : s.batch = some b) (hp : p ∈ b.pending) (hne : b.pending.erase p ≠ []) :
    Inv (afterInvocation p b c s) := by
  obtain ⟨hout, -, -, hnodup, hgrid, hwritten⟩ := h.inFlight b hb
  refine ⟨h.memory, h.sentinel, h.grid, surface_afterInvocation b c h.surface (hgrid p hp), ?_, ?_⟩
  · rintro _ ⟨⟩
    refine ⟨hout, rfl, hne, hnodup.erase p, fun q hq => hgrid q (List.mem_of_mem_erase hq), ?_⟩
    intro x y hxy
    rw [hnodup.mem_erase_iff, hwritten x y hxy, written_afterInvocation b c (hgrid p hp) hxy, not_or]
  · rintro ⟨⟩

/-- The last invocation leaves a legal state: every pixel is written. -/
theorem inv_completeBatch {s : State} {b : Batch} {p : Nat × Nat} (c : Color) (h : Inv s)
    (hb : s.batch = some b) (hp : p ∈ b.pending) (hlast : b.pending.erase p = []) :
    Inv (completeBatch (afterInvocation p b c s)) := by
  obtain ⟨-, -, -, hnodup, hgrid, hwritten⟩ := h.inFlight b hb
  refine ⟨h.memory, h.sentinel, h.grid, surface_afterInvocation b c h.surface (hgrid p hp),
    (fun _ hbatch => by cases hbatch), fun _ _ x y hxy => ?_⟩
  have hnotPending : (x, y) ∉ b.pending.erase p := by simp [hlast]
  rw [hnodup.mem_erase_iff, hwritten x y hxy] at hnotPending
  exact (written_afterInvocation b c (hgrid p hp) hxy).2 (by tauto)

/-- The writer's store leaves a legal state: the memory stays canonical and keeps its size. -/
theorem inv_store {s : State} {a : Nat} (v : Byte) (rest : List Input) (h : Inv s)
    (hb : s.batch = none) (ha : a < s.mem.size) :
    Inv { s with mem := s.mem.write a v, inbox := rest } where
  memory := write_wf h.memory v ha
  sentinel := h.sentinel
  grid := h.grid
  surface := h.surface
  inFlight b hb' := by
    rw [hb] at hb'
    cases hb'
  completed := h.completed

/-- One step of a batch leaves a legal state. -/
theorem inv_invoke {s t : State} {b : Batch} (h : Inv s) (hb : s.batch = some b)
    (hstep : invoke b s = .next t) : Inv t := by
  obtain ⟨-, -, hne, -⟩ := h.inFlight b hb
  obtain ⟨p, hp, ⟨e, -, hinvoke⟩ | ⟨c, -, ⟨hlast, hinvoke⟩ | ⟨hmore, hinvoke⟩⟩⟩ := invoke_answers s hne <;>
    (rw [hinvoke] at hstep; cases hstep)
  · exact inv_takeException e h.memory h.sentinel h.grid (issue_batch p b s)
  · exact inv_completeBatch c h hb hp hlast
  · exact inv_afterInvocation c h hb hp hmore

/-- Settles O53: an abandonment, an invocation, idleness, a store and a launch each keep the invariant. -/
theorem everyStepKeepsTheInvariant : Obligations.EveryStepKeepsTheInvariant := by
  intro s t h hstep
  obtain ⟨b, rest, -, -, rfl⟩ | ⟨b, hb, hinvoke⟩ | ⟨-, -, rfl⟩ | ⟨a, v, rest, hb, -, ha, rfl⟩ |
    ⟨w, k, rest, -, -, hg, rfl⟩ := step_cases hstep
  · exact inv_endWithoutFrame h.memory h.sentinel h.grid (by decide)
  · exact inv_invoke h hb hinvoke
  · exact h
  · exact inv_store v rest h hb ha
  · exact (startBatch_inv (s := { s with inbox := rest }) h.memory h.sentinel hg).1

/-! ### Painted pixels -/

/-- Every pixel of the grid holds `pixel(px, py)` (R147). -/
def ShowsFrame (s : State) : Prop :=
  ∀ x y, s.onGrid x y = true → pixelColor s x y = .ok (s.out.colorAt (pixelIndex s.outW x y))

theorem ShowsFrame.pixelAt {s : State} (h : ShowsFrame s) {x y : Nat} (hxy : s.onGrid x y = true) :
    ∃ c, s.pixelAt x y = some c ∧ pixelColor s x y = .ok c :=
  ⟨_, if_pos hxy, h x y hxy⟩

theorem painted_of_no_batch {s : State} (hb : s.batch = none) : Painted s := by
  intro b hb'
  rw [hb] at hb'
  cases hb'

/-- After an invocation each pixel whose coordinate is no longer pending holds its own colour: the one
just written, or one written before. -/
theorem colorAt_afterInvocation_of_painted {s : State} {b : Batch} {p : Nat × Nat} {c : Color}
    (h : Painted s) (hb : s.batch = some b) (hp : s.onGrid p.1 p.2 = true)
    (hc : pixelColor s p.1 p.2 = .ok c) {x y : Nat} (hxy : s.onGrid x y = true)
    (hnot : (x, y) ∉ b.pending.erase p) :
    pixelColor s x y = .ok ((afterInvocation p b c s).out.colorAt (pixelIndex s.outW x y)) := by
  rw [colorAt_afterInvocation b c hp hxy]
  split
  · next heq => subst heq; exact hc
  · next hother => exact h b hb x y hxy fun hmem => hnot ((List.mem_erase_of_ne hother).2 hmem)

theorem painted_afterInvocation {s : State} {b : Batch} {p : Nat × Nat} {c : Color} (h : Painted s)
    (hb : s.batch = some b) (hp : s.onGrid p.1 p.2 = true) (hc : pixelColor s p.1 p.2 = .ok c) :
    Painted (afterInvocation p b c s) := by
  rintro _ ⟨⟩ x y hxy hnot
  exact colorAt_afterInvocation_of_painted h hb hp hc hxy hnot

theorem showsFrame_completeBatch {s : State} {b : Batch} {p : Nat × Nat} {c : Color} (h : Painted s)
    (hb : s.batch = some b) (hp : s.onGrid p.1 p.2 = true) (hc : pixelColor s p.1 p.2 = .ok c)
    (hlast : b.pending.erase p = []) : ShowsFrame (completeBatch (afterInvocation p b c s)) := by
  intro x y hxy
  exact colorAt_afterInvocation_of_painted h hb hp hc hxy (by simp [hlast])

/-- One step of a batch keeps its painted pixels, and if it completes the batch all are painted. -/
theorem painted_invoke {s t : State} {b : Batch} (h : Inv s) (hpaint : Painted s)
    (hb : s.batch = some b) (hstep : invoke b s = .next t) :
    Painted t ∧ (t.outcome = some .completed → ShowsFrame t) := by
  obtain ⟨hout, -, hne, -, hgrid, -⟩ := h.inFlight b hb
  obtain ⟨p, hp, ⟨e, -, hinvoke⟩ | ⟨c, hc, ⟨hlast, hinvoke⟩ | ⟨-, hinvoke⟩⟩⟩ := invoke_answers s hne <;>
    (rw [hinvoke] at hstep; cases hstep)
  · refine ⟨painted_of_no_batch (takeException_batch _ _), fun hcompleted => ?_⟩
    rw [takeException_outcome_of_batch e (issue_batch p b s)] at hcompleted
    cases hcompleted
  · exact ⟨painted_of_no_batch rfl,
      fun _ => showsFrame_completeBatch hpaint hb (hgrid p hp) hc hlast⟩
  · refine ⟨painted_afterInvocation hpaint hb (hgrid p hp) hc, fun hcompleted => ?_⟩
    rw [afterInvocation_outcome, hout] at hcompleted
    cases hcompleted

/-- Settles O54: an invocation adds its own pixel to the painted ones, the last one leaves none unpainted;
every other step ends with no batch in flight or with nothing painted yet. -/
theorem completedBatchShowsThePixelFunction : Obligations.CompletedBatchShowsThePixelFunction := by
  intro s t h hpaint hstep
  obtain ⟨b, rest, -, -, rfl⟩ | ⟨b, hb, hinvoke⟩ | ⟨hb, -, rfl⟩ | ⟨a, v, rest, hb, -, -, rfl⟩ |
    ⟨w, k, rest, hb, -, hg, rfl⟩ := step_cases hstep
  · exact ⟨painted_of_no_batch rfl, fun _ hcompleted => by cases hcompleted⟩
  · obtain ⟨hpainted, hshows⟩ := painted_invoke h hpaint hb hinvoke
    exact ⟨hpainted, fun _ hcompleted x y hx hy =>
      (hshows hcompleted).pixelAt (onGrid_iff.2 ⟨hx, hy⟩)⟩
  · exact ⟨hpaint, fun hne => absurd hb hne⟩
  · exact ⟨painted_of_no_batch hb, fun hne => absurd hb hne⟩
  · exact ⟨(startBatch_inv (s := { s with inbox := rest }) h.memory h.sentinel hg).2,
      fun hne => absurd hb hne⟩

/-! ### Reset -/

/-- Settles O51: the three fields as `State.reset` gives them. -/
theorem resetHasNoBatch : Obligations.ResetHasNoBatch := ⟨rfl, rfl, rfl⟩

/-- Settles O52: no batch is in flight at reset and none has completed, the surface is empty, and the
memory lists no byte. -/
theorem invariantHoldsAtReset : Obligations.InvariantHoldsAtReset where
  left :=
    { memory := reset_mem_wf
      sentinel := rfl
      grid := rfl
      surface := ⟨List.Pairwise.nil, fun _ he => absurd he List.not_mem_nil⟩
      inFlight := fun _ hb => by cases hb
      completed := fun _ hc => by cases hc }
  right := painted_of_no_batch rfl

end Sys2Proof.Machine
end

section
/-! PROOFS. byte_decoder (40_byte_decoder.md): the word-port splice of R72 lane by lane, the reads under
`clamp` (R74), and the statements that follow. -/

namespace Sys2Proof.Machine

/-! ### Words by their lanes -/

/-- A word is its four lanes (R31). -/
theorem word_ext_of_lanes {v w : Word} (h : ∀ k < 4, lane v k = lane w k) : v = w := by
  apply BitVec.eq_of_getLsbD_eq
  intro i hi
  have hlane := congrArg (fun x => x.getLsbD (i % 8)) (h (i / 8) (by omega))
  have hmod : i % 8 < 8 := Nat.mod_lt _ (by decide)
  simpa [lane, hmod, Nat.div_add_mod] using hlane

theorem lane_and (v w : Word) (k : Nat) : lane (v &&& w) k = lane v k &&& lane w k := by
  apply BitVec.eq_of_getLsbD_eq
  intro i hi
  simp [lane, hi]

theorem lane_or (v w : Word) (k : Nat) : lane (v ||| w) k = lane v k ||| lane w k := by
  apply BitVec.eq_of_getLsbD_eq
  intro i hi
  simp [lane, hi]

theorem lane_ushiftRight (w : Word) (j k : Nat) : lane (w >>> (8 * j)) k = lane w (j + k) := by
  rw [lane, lane, Nat.mul_add, BitVec.shiftRight_add]

theorem lane_shiftLeft (w : Word) {j k : Nat} (hk : k < 4) :
    lane (w <<< (8 * j)) k = if k < j then 0#8 else lane w (k - j) := by
  apply BitVec.eq_of_getLsbD_eq
  intro i hi
  have hlt : 8 * k + i < 32 := by omega
  split
  · next h =>
    have hlow : 8 * k + i < 8 * j := by omega
    simp [lane, hlt, hlow]
  · next h =>
    have hhigh : ¬ 8 * k + i < 8 * j := by omega
    have hsub : 8 * k + i - 8 * j = 8 * (k - j) + i := by omega
    have hlt' : 8 * (k - j) + i < 32 := by omega
    simp [lane, hi, hlt, hhigh, hsub, BitVec.getLsbD_eq_getElem hlt']

/-- The lanes of a word of the memory are its four bytes (R31). -/
theorem lane_word_of_lt (m : Memory) (q : Nat) {k : Nat} (hk : k < 4) :
    lane (m.word q) k = m.byteAt (4 * q + k) := by
  have h := lane_word m (4 * q + k)
  rwa [Nat.mul_add_div (by decide), Nat.mul_add_mod, Nat.div_eq_of_lt hk, Nat.mod_eq_of_lt hk,
    Nat.add_zero] at h

theorem lane_packBytes_three (b0 b1 b2 : Byte) : lane (packBytes b0 b1 b2) 3 = 0#8 := by
  apply BitVec.eq_of_getLsbD_eq
  intro i hi
  have h0 : b0.getLsbD (24 + i) = false := BitVec.getLsbD_of_ge _ _ (by omega)
  have h1 : b1.getLsbD (24 + i - 8) = false := BitVec.getLsbD_of_ge _ _ (by omega)
  have h2 : b2.getLsbD (24 + i - 16) = false := BitVec.getLsbD_of_ge _ _ (by omega)
  simp [lane, packBytes, h0, h1, h2]

theorem and_byteMask (b : Byte) : b &&& 255#8 = b := BitVec.and_allOnes

/-! ### The word port -/

/-- The masks of R72 keep the three, two and one lowest lanes. -/
theorem lane_mask24 {k : Nat} (hk : k < 4) :
    lane 0x00FFFFFF#32 k = if k < 3 then 255#8 else 0#8 := by
  revert k; decide

theorem lane_mask16 {k : Nat} (hk : k < 4) : lane 0xFFFF#32 k = if k < 2 then 255#8 else 0#8 := by
  revert k; decide

theorem lane_mask8 {k : Nat} (hk : k < 4) : lane 0xFF#32 k = if k < 1 then 255#8 else 0#8 := by
  revert k; decide

/-- Each alignment case of R72 puts the three bytes in the three low lanes. -/
theorem lane_spliceWords (m : Memory) (a : Nat) {k : Nat} (hk : k < 4) :
    lane (spliceWords m a) k = if k < 3 then m.byteAt (a + k) else 0#8 := by
  obtain ⟨q, r, hr, rfl⟩ : ∃ q r, r < 4 ∧ a = 4 * q + r :=
    ⟨a / 4, a % 4, Nat.mod_lt _ (by decide), (Nat.div_add_mod a 4).symm⟩
  have hdiv : (4 * q + r) / 4 = q := by omega
  have hmod : (4 * q + r) % 4 = r := by omega
  have down : ∀ (w : Word) (j : Nat), lane (w >>> (8 * j)) k = lane w (j + k) :=
    fun w j => lane_ushiftRight w j k
  have up : ∀ (w : Word) (j : Nat), lane (w <<< (8 * j)) k = if k < j then 0#8 else lane w (k - j) :=
    fun w j => lane_shiftLeft w hk
  have first : ∀ j < 4, lane (m.word q) j = m.byteAt (4 * q + j) := fun j => lane_word_of_lt m q
  have second : ∀ j < 4, lane (m.word (q + 1)) j = m.byteAt (4 * q + 4 + j) :=
    fun j => lane_word_of_lt m (q + 1)
  simp only [spliceWords, wordSize, hdiv, hmod]
  interval_cases r
  · simp only [lane_and, lane_mask24 hk, first k hk]
    split <;> simp [and_byteMask]
  · simp only [lane_and, lane_mask24 hk, down _ 1]
    interval_cases k <;> simp [and_byteMask, first, Nat.add_assoc]
  · simp only [lane_or, lane_and, lane_mask16 hk, down _ 2, up _ 2]
    interval_cases k <;> simp [and_byteMask, first, second, lane_mask8, Nat.add_assoc]
  · simp only [lane_or, lane_and, lane_mask8 hk, down _ 3, up _ 1]
    interval_cases k <;> simp [and_byteMask, first, second, lane_mask16, Nat.add_assoc]

/-- R72: a `peek24` is the splice of the words at the word port. -/
theorem packBytes_eq_spliceWords (m : Memory) (a : Nat) :
    packBytes (m.byteAt a) (m.byteAt (a + 1)) (m.byteAt (a + 2)) = spliceWords m a := by
  apply word_ext_of_lanes
  intro k hk
  obtain ⟨h0, h1, h2⟩ := lane_packBytes (m.byteAt a) (m.byteAt (a + 1)) (m.byteAt (a + 2))
  rw [lane_spliceWords m a hk]
  interval_cases k
  · exact h0
  · exact h1
  · exact h2
  · exact lane_packBytes_three _ _ _

/-- R34: the words at the port are those that hold one of the three bytes. -/
theorem mem_peek24Words {a i : Nat} : i ∈ peek24Words a ↔ ∃ k < 3, i = (a + k) / 4 := by
  have hwords : i ∈ peek24Words a ↔ i = a / 4 ∨ 2 ≤ a % 4 ∧ i = a / 4 + 1 := by
    by_cases h2 : 2 ≤ a % 4 <;> simp [peek24Words, h2]
  rw [hwords]
  constructor
  · rintro (h | ⟨h2, h⟩)
    · exact ⟨0, by decide, h⟩
    · exact ⟨2, by decide, by omega⟩
  · rintro ⟨k, hk, h⟩
    omega

/-- Settles O3: the splice lane by lane, and each word at the port holds a byte that is in bounds. -/
theorem peek24IsTheWordPortSplice : Obligations.Peek24IsTheWordPortSplice := by
  intro s addr hlt
  refine ⟨?_, fun _ => mem_peek24Words, fun i hi => ?_⟩
  · rw [exec_peek24_of_lt hlt, packBytes_eq_spliceWords]
    rfl
  · obtain ⟨k, hk, rfl⟩ := mem_peek24Words.1 hi
    simp only [Memory.size, wordSize] at hlt
    omega

/-! ### Reads under `clamp` -/

/-- The byte a read under `clamp` with the sentinel `k` answers (R74). -/
def Memory.clampedByte (m : Memory) (k a : Nat) : Byte := if a < m.size then m.byteAt a else m.byteAt k

/-- Under `clamp` with a legal sentinel every byte read answers (R74). -/
theorem peek8_clampedByte {P : Params} {m : Memory} {k : Nat} (hP : P.oobPolicy = .clamp k)
    (hk : k < m.size) (a : Nat) : peek8 P m a = .ok (m.clampedByte k a) := by
  unfold Memory.clampedByte
  split
  · next h => exact peek8_of_lt h
  · next h => exact peek8_clamp hP hk (not_lt.1 h)

/-- Under `clamp` with a legal sentinel every 24-bit read answers, each byte replaced on its own (R74). -/
theorem peek24_clampedByte {P : Params} {m : Memory} {k : Nat} (hP : P.oobPolicy = .clamp k)
    (hk : k < m.size) (a : Nat) :
    peek24 P m a =
      .ok (packBytes (m.clampedByte k a) (m.clampedByte k (a + 1)) (m.clampedByte k (a + 2))) := by
  simp only [peek24, peek8_clampedByte hP hk]
  rfl

/-- Settles O4: `peek24` is three byte reads, and under `clamp` each of them answers. -/
theorem clampReplacesEachByteAddress : Obligations.ClampReplacesEachByteAddress := by
  intro s addr k hP hk rd
  refine ⟨?_, ?_⟩
  · rw [exec_peek8, peek8_clampedByte hP hk]
    rfl
  · rw [exec_peek24, peek24_clampedByte hP hk]
    rfl

end Sys2Proof.Machine
end

section
/-! PROOFS. address_translator and color_decoder, closed forms: the scrolled address with and without zero
dimensions (R85, R87), the colour of a byte (R90, R91), and the statements that follow. -/

namespace Sys2Proof.Machine

/-! ### Addresses -/

/-- R87: the remainder by zero is the open `MODZ`. -/
theorem modulo_zero (a : Nat) : modulo a 0 = Config.modZ a := if_pos rfl

/-- Settles O6: for non-zero dimensions the remainder is that of the natural numbers. -/
theorem toByteAddressIsTheScrolledCell : Obligations.ToByteAddressIsTheScrolledCell := by
  intro s x y regs hwidth hheight
  have hw : 0 < regs.width.toNat := by bv_omega
  have hh : 0 < regs.height.toNat := by bv_omega
  rw [exec_toByteAddress, toByteAddress_eq, modulo_of_pos _ hw, modulo_of_pos _ hh]
  rfl

/-- Settles O7: with a zero height the row, with a zero width the column is `MODZ`, and in the second case
no row is added. -/
theorem zeroDimensionsUseTheOpenRemainder : Obligations.ZeroDimensionsUseTheOpenRemainder := by
  intro s x y regs
  constructor
  · intro hheight hwidth
    have hw : 0 < regs.width.toNat := by bv_omega
    rw [exec_toByteAddress, toByteAddress_eq, modulo_of_pos _ hw, hheight, BitVec.toNat_zero, modulo_zero]
    rfl
  · intro hwidth
    rw [exec_toByteAddress, toByteAddress_eq, hwidth, BitVec.toNat_zero, modulo_zero, Nat.mul_zero,
      Nat.zero_add]
    rfl

/-! ### Colours -/

theorem expand3_toNat (v : BitVec 3) :
    (expand3 v).toNat = v.toNat * 32 + v.toNat * 4 + v.toNat / 2 := by
  revert v; decide

theorem expand2_toNat (v : BitVec 2) : (expand2 v).toNat = 85 * v.toNat := by
  revert v; decide

/-- Settles O11: the two formulas, of which the tables are the values and which rise strictly. -/
theorem channelExpansionIsMonotonic : Obligations.ChannelExpansionIsMonotonic := by
  refine ⟨expand3_toNat, expand2_toNat, by decide, by decide, fun v w hlt => ?_, fun v w hlt => ?_⟩
  · rw [expand3_toNat, expand3_toNat]
    omega
  · rw [expand2_toNat, expand2_toNat]
    omega

/-- Settles O9: the operation delivers `toColor`, which expands the three fields of R53. -/
theorem toColorExpandsThreeFields : Obligations.ToColorExpandsThreeFields :=
  fun s b => exec_toColor b s

/-- R118, R128: the zero byte is black. -/
theorem toColor_zero : toColor 0#8 = { r := 0#8, g := 0#8, b := 0#8, a := 255#8 } := by decide

/-! ### `cell_color` -/

theorem exec_cellColor (b : Byte) (model : ColorModel) (regs : RegisterBlock) (s : State) :
    exec (.cellColor b model regs) s =
      deliver ((cellColor s.params s.mem b model regs).map Result.color) s := rfl

/-- R55: the palette entry of a cell byte is that of its low nibble. -/
theorem entryAddress_cellIndex (regs : RegisterBlock) (b : Byte) :
    entryAddress regs (cellIndex b) = regs.palette.toNat + 3 * (b.toNat % 16) := by
  rw [entryAddress, cellIndex, paletteEntries, Nat.mod_mod]

/-- Settles O15: a direct cell reads nothing; a paletted one is `palette_lookup` of the low nibble, and so
the colour of that entry where it is in bounds. -/
theorem cellColorFollowsTheModel : Obligations.CellColorFollowsTheModel := by
  intro s b regs
  have hlookup : exec (.cellColor b .paletted regs) s = exec (.paletteLookup (cellIndex b) regs) s := rfl
  refine ⟨rfl, ?_, hlookup⟩
  intro a ha
  have hentry : entryAddress regs (cellIndex b) + 2 < s.mem.size := by
    rw [entryAddress_cellIndex]
    exact ha
  rw [hlookup, exec_paletteLookup_of_lt hentry, entryColor, entryAddress_cellIndex]
  rfl

end Sys2Proof.Machine
end

section
/-! PROOFS. The routines of the mode table (R51, R104) by its three axes, so that what is said of all nine
is said of text, graphics and FALLBACK: the colour of a routine whose reads are in bounds, the exception of
one with a read out of bounds, and what its colour depends on. -/

namespace Sys2Proof.Machine

/-! ### The routine of a mode byte -/

/-- The routines a mode byte selects (R51). -/
inductive Routine where
  | text (res : Resolution) (model : ColorModel)
  | graphics (res : Resolution) (model : ColorModel)
  | fallback

/-- Bit 1 of the mode byte (R51). -/
def modeResolution (mode : Byte) : Resolution := if mode.getLsbD 1 then .high else .low

/-- Bit 2 of the mode byte (R51). -/
def modeModel (mode : Byte) : ColorModel := if mode.getLsbD 2 then .paletted else .direct

/-- Below 8 bit 0 tells graphics from text (R51); every other byte is FALLBACK (R105). -/
def Routine.ofMode (mode : Byte) : Routine :=
  if mode.toNat < 8 then
    if mode.getLsbD 0 then .graphics (modeResolution mode) (modeModel mode)
    else .text (modeResolution mode) (modeModel mode)
  else .fallback

/-- The colour of a routine, as the model computes it (`dispatchColor_eq`). -/
def Routine.color (P : Params) (m : Memory) (origin : Int × Int) (px py : Nat) (regs : RegisterBlock) :
    Routine → Access Color
  | .text res model => textMode P m px py regs res model
  | .graphics .low model => lowGraphics P m origin px py regs model
  | .graphics .high model => highGraphics P m px py regs model
  | .fallback => fallbackColor

/-- The bytes a routine names (`routineReads_eq`). -/
def Routine.reads (m : Memory) (origin : Int × Int) (px py : Nat) (regs : RegisterBlock) :
    Routine → List Nat
  | .text res model => textReads m regs res model px py
  | .graphics .low model => lowReads m regs origin model px py
  | .graphics .high model => cellReads m regs model (highCellAddress regs px py)
  | .fallback => []

/-- The bytes below 8 are the eight rows of the mode table. -/
theorem eq_of_toNat_lt_eight {mode : Byte} (h : mode.toNat < 8) :
    mode = 0#8 ∨ mode = 1#8 ∨ mode = 2#8 ∨ mode = 3#8 ∨ mode = 4#8 ∨ mode = 5#8 ∨ mode = 6#8 ∨
      mode = 7#8 := by
  revert mode; decide

theorem ofMode_fallback {mode : Byte} (h : ¬ mode.toNat < 8) : Routine.ofMode mode = .fallback :=
  if_neg h

/-- R104: `dispatch` is the routine of its mode byte. -/
theorem dispatchColor_eq (P : Params) (m : Memory) (origin : Int × Int) (mode : Byte) (px py : Nat)
    (regs : RegisterBlock) :
    dispatchColor P m origin mode px py regs = (Routine.ofMode mode).color P m origin px py regs := by
  by_cases h : mode.toNat < 8
  · rcases eq_of_toNat_lt_eight h with rfl | rfl | rfl | rfl | rfl | rfl | rfl | rfl <;> rfl
  · rw [dispatchColor_fallback h, ofMode_fallback h]
    rfl

/-- R40: the bytes a mode names are those of its routine. -/
theorem routineReads_eq (m : Memory) (regs : RegisterBlock) (origin : Int × Int) (mode : Byte)
    (px py : Nat) :
    routineReads m regs origin mode px py = (Routine.ofMode mode).reads m origin px py regs := by
  by_cases h : mode.toNat < 8
  · rcases eq_of_toNat_lt_eight h with rfl | rfl | rfl | rfl | rfl | rfl | rfl | rfl <;> rfl
  · rw [ofMode_fallback h, routineReads]
    iterate 8 rw [if_neg (by rintro rfl; exact h (by decide))]
    rfl

/-! ### The colour of a routine whose reads are in bounds -/

/-- The colour of a graphics byte in a colour model, its palette entry read byte by byte (R106). -/
def cellValue (m : Memory) (regs : RegisterBlock) (model : ColorModel) (b : Byte) : Color :=
  match model with
  | .direct => toColor b
  | .paletted => entryColor m regs (cellIndex b)

/-- The colour of a text pixel, its reads taken byte by byte (R117). -/
def textValue (m : Memory) (regs : RegisterBlock) (res : Resolution) (model : ColorModel)
    (px py : Nat) : Color :=
  match model with
  | .direct =>
    toColor (if glyphBit m regs res px py then m.byteAt (attrAddress regs res px py) else 0#8)
  | .paletted => entryColor m regs (textIndex m regs res px py)

/-- The colour of a low-resolution graphics pixel: its cell's, or that of the zero byte (R127, R130). -/
def lowValue (m : Memory) (regs : RegisterBlock) (origin : Int × Int) (model : ColorModel)
    (px py : Nat) : Color :=
  cellValue m regs model
    (if inWindow origin px py then m.byteAt (lowCellAddress regs origin px py) else 0#8)

/-- The colour a routine delivers where its reads are in bounds (`color_of_reads`). -/
def Routine.value (m : Memory) (origin : Int × Int) (px py : Nat) (regs : RegisterBlock) :
    Routine → Color
  | .text res model => textValue m regs res model px py
  | .graphics .low model => lowValue m regs origin model px py
  | .graphics .high model => cellValue m regs model (m.byteAt (highCellAddress regs px py))
  | .fallback => Config.fallbackColor

theorem forall_entryReads_lt {regs : RegisterBlock} {index n : Nat} :
    (∀ a ∈ entryReads regs index, a < n) ↔ entryAddress regs index + 2 < n := by
  simp only [entryReads, List.forall_mem_cons, List.not_mem_nil, false_implies, implies_true, and_true]
  omega

theorem forall_cellReads_lt {m : Memory} {regs : RegisterBlock} {model : ColorModel} {a n : Nat} :
    (∀ x ∈ cellReads m regs model a, x < n) ↔
      a < n ∧ (model = .paletted → entryAddress regs (cellIndex (m.byteAt a)) + 2 < n) := by
  unfold cellReads
  rw [List.forall_mem_cons]
  cases model with
  | direct => simp
  | paletted => simp only [forall_entryReads_lt, forall_const]

theorem forall_textReads_lt {m : Memory} {regs : RegisterBlock} {res : Resolution} {model : ColorModel}
    {px py n : Nat} :
    (∀ a ∈ textReads m regs res model px py, a < n) ↔
      charAddress regs res px py < n ∧ fontAddress m regs res px py < n ∧
        attrAddress regs res px py < n ∧
        (model = .paletted → entryAddress regs (textIndex m regs res px py) + 2 < n) := by
  simp only [textReads, List.cons_append, List.nil_append, List.forall_mem_cons]
  cases model with
  | direct => simp
  | paletted => simp only [forall_entryReads_lt, forall_const]

theorem forall_lowReads_lt {m : Memory} {regs : RegisterBlock} {origin : Int × Int}
    {model : ColorModel} {px py n : Nat} :
    (∀ a ∈ lowReads m regs origin model px py, a < n) ↔
      if inWindow origin px py then
        lowCellAddress regs origin px py < n ∧
          (model = .paletted →
            entryAddress regs (cellIndex (m.byteAt (lowCellAddress regs origin px py))) + 2 < n)
      else model = .paletted → entryAddress regs 0 + 2 < n := by
  unfold lowReads
  split
  · exact forall_cellReads_lt
  · cases model with
    | direct => simp
    | paletted => simp only [forall_entryReads_lt, forall_const]

/-- The colour of a byte whose palette entry, if it needs one, is in bounds (R106). -/
theorem cellColor_of_reads {P : Params} {m : Memory} {regs : RegisterBlock} {model : ColorModel}
    {b : Byte} (h : model = .paletted → entryAddress regs (cellIndex b) + 2 < m.size) :
    cellColor P m b model regs = .ok (cellValue m regs model b) := by
  cases model with
  | direct => rfl
  | paletted => exact paletteLookup_of_lt (h rfl)

theorem highGraphics_of_reads {P : Params} {m : Memory} {regs : RegisterBlock} {model : ColorModel}
    {px py : Nat} (h : ∀ a ∈ cellReads m regs model (highCellAddress regs px py), a < m.size) :
    highGraphics P m px py regs model =
      .ok (cellValue m regs model (m.byteAt (highCellAddress regs px py))) := by
  obtain ⟨hcell, hentry⟩ := forall_cellReads_lt.1 h
  rw [highGraphics_of_lt model hcell, cellColor_of_reads hentry]

theorem lowGraphics_of_reads {P : Params} {m : Memory} {regs : RegisterBlock} {origin : Int × Int}
    {model : ColorModel} {px py : Nat} (h : ∀ a ∈ lowReads m regs origin model px py, a < m.size) :
    lowGraphics P m origin px py regs model = .ok (lowValue m regs origin model px py) := by
  rw [forall_lowReads_lt] at h
  unfold lowValue
  cases hw : inWindow origin px py with
  | true =>
    rw [if_pos hw] at h
    obtain ⟨hcell, hentry⟩ := h
    rw [lowGraphics_of_lt model hw hcell, cellColor_of_reads hentry, if_pos rfl]
  | false =>
    rw [if_neg (by simp [hw])] at h
    rw [lowGraphics_outside model hw, if_neg Bool.false_ne_true]
    exact cellColor_of_reads h

theorem textMode_of_reads {P : Params} {m : Memory} {regs : RegisterBlock} {res : Resolution}
    {model : ColorModel} {px py : Nat} (h : ∀ a ∈ textReads m regs res model px py, a < m.size) :
    textMode P m px py regs res model = .ok (textValue m regs res model px py) := by
  obtain ⟨hchar, hfont, hattr, hentry⟩ := forall_textReads_lt.1 h
  rw [textMode_of_lt model hchar hfont hattr]
  cases model with
  | direct => rfl
  | paletted => exact paletteLookup_of_lt (hentry rfl)

/-- A routine whose reads are in bounds delivers its colour, whatever the policy. -/
theorem color_of_reads {P : Params} {m : Memory} {origin : Int × Int} {px py : Nat}
    {regs : RegisterBlock} {r : Routine} (h : ∀ a ∈ r.reads m origin px py regs, a < m.size) :
    r.color P m origin px py regs = .ok (r.value m origin px py regs) := by
  match r, h with
  | .text _ _, h => exact textMode_of_reads h
  | .graphics .low _, h => exact lowGraphics_of_reads h
  | .graphics .high _, h => exact highGraphics_of_reads h
  | .fallback, _ => rfl

/-! ### The exception of a routine with a read out of bounds -/

/-- Under `fatal` the colour of a byte raises when it needs a palette entry that is out of bounds. -/
theorem cellColor_of_entry_fatal {P : Params} {m : Memory} {regs : RegisterBlock} {model : ColorModel}
    {b : Byte} (hP : P.oobPolicy = .fatal)
    (h : ¬(model = .paletted → entryAddress regs (cellIndex b) + 2 < m.size)) :
    ∃ a, cellColor P m b model regs = .error (.outOfBounds a) := by
  obtain ⟨rfl, hge⟩ := Classical.not_imp.1 h
  exact cellColor_fatal hP (not_lt.1 hge)

theorem highGraphics_of_read_fatal {P : Params} {m : Memory} {regs : RegisterBlock} {model : ColorModel}
    {px py : Nat} (hP : P.oobPolicy = .fatal)
    (h : ¬∀ a ∈ cellReads m regs model (highCellAddress regs px py), a < m.size) :
    ∃ a, highGraphics P m px py regs model = .error (.outOfBounds a) := by
  rw [forall_cellReads_lt] at h
  by_cases hcell : highCellAddress regs px py < m.size
  · rw [highGraphics_of_lt model hcell]
    exact cellColor_of_entry_fatal hP fun hentry => h ⟨hcell, hentry⟩
  · exact ⟨_, highGraphics_fatal hP (not_lt.1 hcell)⟩

theorem lowGraphics_of_read_fatal {P : Params} {m : Memory} {regs : RegisterBlock} {origin : Int × Int}
    {model : ColorModel} {px py : Nat} (hP : P.oobPolicy = .fatal)
    (h : ¬∀ a ∈ lowReads m regs origin model px py, a < m.size) :
    ∃ a, lowGraphics P m origin px py regs model = .error (.outOfBounds a) := by
  rw [forall_lowReads_lt] at h
  cases hw : inWindow origin px py with
  | true =>
    rw [if_pos hw] at h
    by_cases hcell : lowCellAddress regs origin px py < m.size
    · rw [lowGraphics_of_lt model hw hcell]
      exact cellColor_of_entry_fatal hP fun hentry => h ⟨hcell, hentry⟩
    · exact ⟨_, lowGraphics_fatal hP hw (not_lt.1 hcell)⟩
  | false =>
    rw [if_neg (by simp [hw])] at h
    rw [lowGraphics_outside model hw]
    exact cellColor_of_entry_fatal hP h

theorem not_forall_lt_iff {l : List Nat} {n : Nat} : (¬∀ a ∈ l, a < n) ↔ ∃ a ∈ l, n ≤ a := by
  push Not
  rfl

/-- Under `fatal` a routine with a read out of bounds raises. -/
theorem color_of_read_fatal {P : Params} {m : Memory} {origin : Int × Int} {px py : Nat}
    {regs : RegisterBlock} {r : Routine} (hP : P.oobPolicy = .fatal)
    (h : ¬∀ a ∈ r.reads m origin px py regs, a < m.size) :
    ∃ a, r.color P m origin px py regs = .error (.outOfBounds a) := by
  match r, h with
  | .text _ _, h => exact textMode_fatal hP (not_forall_lt_iff.1 h)
  | .graphics .low _, h => exact lowGraphics_of_read_fatal hP h
  | .graphics .high _, h => exact highGraphics_of_read_fatal hP h
  | .fallback, h => exact absurd (fun _ ha => absurd ha List.not_mem_nil) h

/-! ### What a routine's colour depends on -/

section
variable {m u : Memory} {regs : RegisterBlock}

theorem entryColor_congr {index : Nat}
    (h : ∀ a ∈ entryReads regs index, m.byteAt a = u.byteAt a) :
    entryColor m regs index = entryColor u regs index := by
  rw [entryColor, entryColor, h _ (by simp [entryReads]), h _ (by simp [entryReads]),
    h _ (by simp [entryReads])]

theorem cellValue_congr {model : ColorModel} {a : Nat}
    (h : ∀ x ∈ cellReads m regs model a, m.byteAt x = u.byteAt x) :
    cellReads u regs model a = cellReads m regs model a ∧
      cellValue m regs model (m.byteAt a) = cellValue u regs model (u.byteAt a) := by
  have hcell := h a List.mem_cons_self
  cases model with
  | direct => exact ⟨rfl, congrArg toColor hcell⟩
  | paletted =>
    have hentry := entryColor_congr fun x hx => h x (List.mem_cons_of_mem _ hx)
    rw [cellReads, cellReads, cellValue, cellValue, ← hcell]
    exact ⟨rfl, hentry⟩

theorem lowValue_congr {origin : Int × Int} {model : ColorModel} {px py : Nat}
    (h : ∀ a ∈ lowReads m regs origin model px py, m.byteAt a = u.byteAt a) :
    lowReads u regs origin model px py = lowReads m regs origin model px py ∧
      lowValue m regs origin model px py = lowValue u regs origin model px py := by
  unfold lowReads lowValue at *
  cases hw : inWindow origin px py with
  | true =>
    rw [hw] at h
    simpa only [if_true] using cellValue_congr h
  | false =>
    rw [hw] at h
    simp only [Bool.false_eq_true, if_false] at h
    cases model with
    | direct => exact ⟨rfl, rfl⟩
    | paletted => exact ⟨rfl, entryColor_congr h⟩

theorem textValue_congr {res : Resolution} {model : ColorModel} {px py : Nat}
    (h : ∀ a ∈ textReads m regs res model px py, m.byteAt a = u.byteAt a) :
    textReads u regs res model px py = textReads m regs res model px py ∧
      textValue m regs res model px py = textValue u regs res model px py := by
  have hchar := h (charAddress regs res px py) (by simp [textReads])
  have hfont : fontAddress m regs res px py = fontAddress u regs res px py := by
    rw [fontAddress, fontAddress, hchar]
  have hglyph : glyphBit m regs res px py = glyphBit u regs res px py := by
    rw [glyphBit, glyphBit, ← hfont, h (fontAddress m regs res px py) (by simp [textReads])]
  have hattr := h (attrAddress regs res px py) (by simp [textReads])
  have hindex : textIndex m regs res px py = textIndex u regs res px py := by
    rw [textIndex, textIndex, hattr, hglyph]
  cases model with
  | direct =>
    rw [textReads, textReads, textValue, textValue, hfont, hglyph, hattr]
    exact ⟨rfl, rfl⟩
  | paletted =>
    have hentry := entryColor_congr (regs := regs) (index := textIndex m regs res px py)
      fun x hx => h x (by simp [textReads, hx])
    rw [textReads, textReads, textValue, textValue, hfont, ← hindex]
    exact ⟨rfl, hentry⟩

/-- Two memories that agree on the bytes a routine names in the first give it the same reads and the same
colour. -/
theorem value_congr {origin : Int × Int} {px py : Nat} {r : Routine}
    (h : ∀ a ∈ r.reads m origin px py regs, m.byteAt a = u.byteAt a) :
    r.reads u origin px py regs = r.reads m origin px py regs ∧
      r.value m origin px py regs = r.value u origin px py regs := by
  match r, h with
  | .text _ _, h => exact textValue_congr h
  | .graphics .low _, h => exact lowValue_congr h
  | .graphics .high _, h => exact cellValue_congr h
  | .fallback, _ => exact ⟨rfl, rfl⟩

end

/-! ### A routine under `clamp` -/

/-- Under `clamp` with a legal sentinel every palette entry is read (R74). -/
theorem paletteLookup_clamp {P : Params} {m : Memory} {k : Nat} (hP : P.oobPolicy = .clamp k)
    (hk : k < m.size) (index : Nat) (regs : RegisterBlock) :
    ∃ c, paletteLookup P m index regs = .ok c :=
  ⟨_, bind_ok (peek24_clampedByte hP hk _)⟩

theorem cellColor_clamp {P : Params} {m : Memory} {k : Nat} (hP : P.oobPolicy = .clamp k)
    (hk : k < m.size) (b : Byte) (model : ColorModel) (regs : RegisterBlock) :
    ∃ c, cellColor P m b model regs = .ok c := by
  cases model with
  | direct => exact ⟨_, rfl⟩
  | paletted => exact paletteLookup_clamp hP hk _ regs

theorem textMode_clamp {P : Params} {m : Memory} {k : Nat} (hP : P.oobPolicy = .clamp k)
    (hk : k < m.size) (px py : Nat) (regs : RegisterBlock) (res : Resolution) (model : ColorModel) :
    ∃ c, textMode P m px py regs res model = .ok c := by
  simp only [textMode, bind_ok (peek8_clampedByte hP hk _)]
  cases model with
  | direct => exact ⟨_, rfl⟩
  | paletted => exact paletteLookup_clamp hP hk _ regs

/-- Under `clamp` with a legal sentinel every routine delivers a colour (R74). -/
theorem color_clamp {P : Params} {m : Memory} {k : Nat} (hP : P.oobPolicy = .clamp k)
    (hk : k < m.size) (origin : Int × Int) (px py : Nat) (regs : RegisterBlock) (r : Routine) :
    ∃ c, r.color P m origin px py regs = .ok c := by
  match r with
  | .text res model => exact textMode_clamp hP hk px py regs res model
  | .graphics .low model =>
    simp only [Routine.color, lowGraphics, bind_ok (peek8_clampedByte hP hk _)]
    split <;> exact cellColor_clamp hP hk _ model regs
  | .graphics .high model =>
    simp only [Routine.color, highGraphics, bind_ok (peek8_clampedByte hP hk _)]
    exact cellColor_clamp hP hk _ model regs
  | .fallback => exact ⟨_, rfl⟩

end Sys2Proof.Machine
end

section
/-! PROOFS. text_mode, the graphics routines and dispatch (45 to 47): what `exec` answers for a routine, the
addresses as the rules write them, and the statements that follow. -/

namespace Sys2Proof.Machine

/-! ### Running a routine -/

/-- A routine at a coordinate on given registers: what `text_mode`, `dispatch` and the instructions of the
mode bytes come to (`exec_textMode`, `exec_dispatch`, `exec_decodeMode_of_le`). -/
def runRoutine (r : Routine) (px py : Nat) (regs : RegisterBlock) (s : State) :
    Host.Outcome State Fault Refusal :=
  deliver ((r.color s.params s.mem s.lgOrigin px py regs).map Result.color) s

theorem exec_textMode (px py : Nat) (regs : RegisterBlock) (res : Resolution) (model : ColorModel)
    (s : State) :
    exec (.textMode px py regs res model) s = runRoutine (.text res model) px py regs s := rfl

theorem exec_dispatch (mode : Byte) (px py : Nat) (regs : RegisterBlock) (s : State) :
    exec (.dispatch mode px py regs) s = runRoutine (.ofMode mode) px py regs s := by
  rw [runRoutine, ← dispatchColor_eq]
  rfl

/-- With the control block in bounds the instruction of a mode byte is its routine at the current
coordinate (R104). -/
theorem exec_decodeMode_of_le {s : State} (h : 38 ≤ s.mem.size) (mode : Byte) :
    exec (decodeMode mode) s = runRoutine (.ofMode mode) s.px s.py s.mem.registers s := by
  rw [exec_decodeMode, withRegisters_of_le h, dispatchColor_eq]
  split
  · rfl
  · next hge =>
    rw [ofMode_fallback hge]
    exact (deliver_fallbackColor s).symm

theorem runRoutine_of_reads {r : Routine} {px py : Nat} {regs : RegisterBlock} {s : State}
    (h : ∀ a ∈ r.reads s.mem s.lgOrigin px py regs, a < s.mem.size) :
    runRoutine r px py regs s =
      .next (s.withResult (.color (r.value s.mem s.lgOrigin px py regs))) := by
  rw [runRoutine, color_of_reads h, Except.map, deliver_ok]

theorem runRoutine_fatal {r : Routine} {px py : Nat} {regs : RegisterBlock} {s : State}
    (hP : s.params.oobPolicy = .fatal)
    (h : ¬∀ a ∈ r.reads s.mem s.lgOrigin px py regs, a < s.mem.size) :
    ∃ t, runRoutine r px py regs s = .next t ∧ t.result = .none ∧ t.oob.isSome = true := by
  obtain ⟨a, ha⟩ := color_of_read_fatal hP h
  refine ⟨takeException (.outOfBounds a) s, ?_, takeException_result _ _, ?_⟩
  · rw [runRoutine, ha, Except.map, deliver_error]
  · rw [takeException_oob, Option.isSome_some]

/-! ### Text: addresses and colours as R117 writes them -/

theorem charAddress_eq (regs : RegisterBlock) (res : Resolution) (px py : Nat) :
    charAddress regs res px py =
      toByteAddress (px / (8 * glyphScale res)) (py / (8 * glyphScale res)) regs := by
  rw [charAddress, textCell_eq, textCell_eq]

theorem fontAddress_eq (m : Memory) (regs : RegisterBlock) (res : Resolution) (px py : Nat) :
    fontAddress m regs res px py =
      regs.font.toNat + 8 * (m.byteAt (charAddress regs res px py)).toNat + py / glyphScale res % 8 := by
  rw [fontAddress, glyphRowAddress, glyphRow_eq, Nat.shiftLeft_eq, Nat.mul_comm _ (2 ^ 3)]

theorem glyphBit_eq (m : Memory) (regs : RegisterBlock) (res : Resolution) (px py : Nat) :
    glyphBit m regs res px py =
      (m.byteAt (fontAddress m regs res px py)).getLsbD (7 - px / glyphScale res % 8) := by
  rw [glyphBit, textPixelSet, glyphColumn_toNat]

/-- R54: the index of a text pixel is a nibble of its attribute byte. -/
theorem attrIndex_eq (t : Byte) (on : Bool) :
    attrIndex t on = (if on then t.extractLsb' 0 4 else t.extractLsb' 4 4).toNat :=
  (apply_ite BitVec.toNat _ _ _).symm

theorem attrIndex_lt (t : Byte) (on : Bool) : attrIndex t on < 16 := by
  rw [attrIndex_eq]
  exact BitVec.isLt _

/-- R54: the nibbles as remainder and quotient. -/
theorem nibble_toNat (t : Byte) (on : Bool) :
    (if on then t.extractLsb' 0 4 else t.extractLsb' 4 4).toNat =
      if on then t.toNat % 16 else t.toNat / 16 := by
  have hlt := t.isLt
  cases on with
  | true => simp
  | false =>
    simp only [Bool.false_eq_true, if_false, BitVec.extractLsb'_toNat, Nat.shiftRight_eq_div_pow]
    omega

theorem entryAddress_textIndex (m : Memory) (regs : RegisterBlock) (res : Resolution) (px py : Nat) :
    entryAddress regs (textIndex m regs res px py) =
      regs.palette.toNat + 3 * textIndex m regs res px py := by
  rw [entryAddress, textIndex, Nat.mod_eq_of_lt (attrIndex_lt _ _)]

/-- R118: a direct text pixel is black where its glyph bit is off. -/
theorem textValue_direct (m : Memory) (regs : RegisterBlock) (res : Resolution) (px py : Nat) :
    textValue m regs res .direct px py =
      if glyphBit m regs res px py then toColor (m.byteAt (attrAddress regs res px py))
      else { r := 0#8, g := 0#8, b := 0#8, a := 255#8 } := by
  rw [textValue, apply_ite toColor, toColor_zero]

/-- Settles O16: the named addresses are those the rule writes out, so the reads in bounds are those the
statement asks for. -/
theorem textModeColoursItsPixel : Obligations.TextModeColoursItsPixel := by
  intro s px py regs res model k ca ga ta on t pa
  have hca : charAddress regs res px py = ca := charAddress_eq regs res px py
  have hga : fontAddress s.mem regs res px py = ga := by rw [fontAddress_eq, hca]
  have hta : attrAddress regs res px py = ta := by rw [attrAddress, hca, planeSize]
  have hon : glyphBit s.mem regs res px py = on := by rw [glyphBit_eq, hga]
  have hpa : entryAddress regs (textIndex s.mem regs res px py) = pa := by
    rw [entryAddress_textIndex, textIndex, hta, hon, attrIndex_eq]
  have hreads : (∀ a ∈ (Routine.text res model).reads s.mem s.lgOrigin px py regs, a < s.mem.size) ↔
      ca < s.mem.size ∧ ga < s.mem.size ∧ ta < s.mem.size ∧
        (model = .paletted → pa + 2 < s.mem.size) := by
    rw [← hca, ← hga, ← hta, ← hpa]
    exact forall_textReads_lt
  constructor
  · intro hchar hfont hattr hentry
    rw [exec_textMode, runRoutine_of_reads (hreads.2 ⟨hchar, hfont, hattr, hentry⟩), Routine.value]
    cases model with
    | direct =>
      rw [textValue_direct, hon, hta]
      rfl
    | paletted =>
      rw [textValue, entryColor, hpa]
      rfl
  · intro hP hout
    rw [exec_textMode]
    refine runRoutine_fatal hP fun hall => ?_
    obtain ⟨hchar, hfont, hattr, hentry⟩ := hreads.1 hall
    rcases hout with h | h | h | ⟨hmodel, h⟩
    · omega
    · omega
    · omega
    · exact absurd (hentry hmodel) (not_lt.2 h)

/-- Settles O17: the mode bytes 0, 2, 4 and 6 stand for the four text routines. -/
theorem textRoutinesAreTextMode : Obligations.TextRoutinesAreTextMode := fun _ h =>
  ⟨exec_decodeMode_of_le h 0#8, exec_decodeMode_of_le h 2#8, exec_decodeMode_of_le h 4#8,
    exec_decodeMode_of_le h 6#8⟩

/-- Settles O18: the direct routines are `text_mode`, whose direct clause this is. -/
theorem directTextShowsAttributeOrBlack : Obligations.DirectTextShowsAttributeOrBlack := by
  intro s res i k regs ca ga ta hsize hchar hfont hattr
  obtain ⟨hmode0, hmode2, -, -⟩ := textRoutinesAreTextMode s hsize
  have hroutine : exec i s = exec (.textMode s.px s.py regs res .direct) s := by
    cases res
    · exact hmode0
    · exact hmode2
  rw [hroutine]
  exact (textModeColoursItsPixel s s.px s.py regs res .direct).1 hchar hfont hattr nofun

/-- Settles O19: the paletted routines are `text_mode`, whose paletted clause this is, the nibbles being
remainder and quotient by 16. -/
theorem palettedTextShowsForegroundOrBackground :
    Obligations.PalettedTextShowsForegroundOrBackground := by
  intro s res i k regs ca ga ta idx pa hsize hchar hfont hattr hentry
  obtain ⟨-, -, hmode4, hmode6⟩ := textRoutinesAreTextMode s hsize
  have hroutine : exec i s = exec (.textMode s.px s.py regs res .paletted) s := by
    cases res
    · exact hmode4
    · exact hmode6
  have hshows := (textModeColoursItsPixel s s.px s.py regs res .paletted).1 hchar hfont hattr
  simp only [nibble_toNat] at hshows
  rw [hroutine]
  exact hshows fun _ => hentry

/-- Settles O20: a translated cell lies in its plane, the attribute one plane further, and a glyph row at
most `8 * 255 + 7` past the font. -/
theorem textReadsStayInTheirRegions : Obligations.TextReadsStayInTheirRegions := by
  intro m regs res px py hwidth hheight n
  have hw : 0 < regs.width.toNat := by bv_omega
  have hh : 0 < regs.height.toNat := by bv_omega
  have hlow : regs.screen.toNat ≤ charAddress regs res px py := screen_le_toByteAddress _ _ regs
  have hhigh : charAddress regs res px py < regs.screen.toNat + n := toByteAddress_lt _ _ hw hh
  have hattr : attrAddress regs res px py = charAddress regs res px py + n := rfl
  have hcode := (m.byteAt (charAddress regs res px py)).isLt
  have hfont := fontAddress_eq m regs res px py
  refine ⟨hlow, hhigh, ?_, ?_, ?_, ?_⟩ <;> omega

/-! ### Graphics: the window and the cells -/

/-- The origin of the window on the grid of a state, as R127 writes it. -/
theorem lgOrigin_eq (s : State) :
    s.lgOrigin = s.params.lgOrigin.getD
      (Int.fdiv ((s.outW : Int) - 576) 2, Int.fdiv ((s.outH : Int) - 576) 2) := by
  rw [State.lgOrigin, windowOrigin]
  cases s.params.lgOrigin with
  | some o => rfl
  | none => simp [centredOrigin, Int.fdiv_eq_ediv_of_nonneg]

/-- A high-resolution graphics routine needs its cell in bounds and, paletted, the entry it selects. -/
theorem forall_highReads_lt {m : Memory} {origin : Int × Int} {px py n : Nat} {regs : RegisterBlock}
    {model : ColorModel} :
    (∀ a ∈ (Routine.graphics .high model).reads m origin px py regs, a < n) ↔
      highCellAddress regs px py < n ∧
        (model = .paletted →
          entryAddress regs (cellIndex (m.byteAt (highCellAddress regs px py))) + 2 < n) :=
  forall_cellReads_lt

/-- Settles O21: modes 3 and 7 read the cell of the pixel, and mode 7 the palette entry it selects. -/
theorem highGraphicsShowsTheCell : Obligations.HighGraphicsShowsTheCell := by
  intro s hsize regs ca b pa
  have hmode3 : exec .mode3 s = runRoutine (.graphics .high .direct) s.px s.py regs s :=
    exec_decodeMode_of_le hsize 3#8
  have hmode7 : exec .mode7 s = runRoutine (.graphics .high .paletted) s.px s.py regs s :=
    exec_decodeMode_of_le hsize 7#8
  have hpa : entryAddress regs (cellIndex b) = pa := entryAddress_cellIndex regs b
  rw [hmode3, hmode7, ← hpa]
  refine ⟨fun hcell => ?_, fun hcell hentry => ?_, fun hP hout => ?_, fun hP hout => ?_⟩
  · exact runRoutine_of_reads (forall_highReads_lt.2 ⟨hcell, nofun⟩)
  · rw [runRoutine_of_reads (forall_highReads_lt.2 ⟨hcell, fun _ => hentry⟩), Routine.value]
    rfl
  · refine runRoutine_fatal hP fun hall => ?_
    exact absurd (forall_highReads_lt.1 hall).1 (not_lt.2 hout)
  · refine runRoutine_fatal hP fun hall => ?_
    obtain ⟨hcell, hentry⟩ := forall_highReads_lt.1 hall
    rcases hout with h | h
    · exact absurd hcell (not_lt.2 h)
    · exact absurd (hentry rfl) (not_lt.2 h)

/-- A low-resolution graphics routine inside the window needs its cell and, paletted, the entry it
selects. -/
theorem forall_lowReads_lt_inside {m : Memory} {origin : Int × Int} {px py n : Nat}
    {regs : RegisterBlock} {model : ColorModel} (hw : inWindow origin px py = true) :
    (∀ a ∈ (Routine.graphics .low model).reads m origin px py regs, a < n) ↔
      lowCellAddress regs origin px py < n ∧
        (model = .paletted →
          entryAddress regs (cellIndex (m.byteAt (lowCellAddress regs origin px py))) + 2 < n) :=
  forall_lowReads_lt.trans (by rw [if_pos hw])

/-- Outside the window it needs palette entry 0 where it is paletted, and nothing else (R128, R130). -/
theorem forall_lowReads_lt_outside {m : Memory} {origin : Int × Int} {px py n : Nat}
    {regs : RegisterBlock} {model : ColorModel} (hw : ¬inWindow origin px py = true) :
    (∀ a ∈ (Routine.graphics .low model).reads m origin px py regs, a < n) ↔
      (model = .paletted → entryAddress regs 0 + 2 < n) :=
  forall_lowReads_lt.trans (by rw [if_neg hw])

theorem lowValue_inside {m : Memory} {regs : RegisterBlock} {origin : Int × Int} {px py : Nat}
    (model : ColorModel) (hw : inWindow origin px py = true) :
    lowValue m regs origin model px py =
      cellValue m regs model (m.byteAt (lowCellAddress regs origin px py)) := by
  rw [lowValue, if_pos hw]

theorem lowValue_outside {m : Memory} {regs : RegisterBlock} {origin : Int × Int} {px py : Nat}
    (model : ColorModel) (hw : ¬inWindow origin px py = true) :
    lowValue m regs origin model px py = cellValue m regs model 0#8 := by
  rw [lowValue, if_neg hw]

/-- Settles O22: mode 1 inside and outside the window, the origin being that of R127. -/
theorem lowDirectGraphicsIsWindowed : Obligations.LowDirectGraphicsIsWindowed := by
  intro s hsize regs origin dx dy ca
  have hmode1 : exec .mode1 s = runRoutine (.graphics .low .direct) s.px s.py regs s :=
    exec_decodeMode_of_le hsize 1#8
  have horigin : s.lgOrigin = origin := lgOrigin_eq s
  have hcell : lowCellAddress regs s.lgOrigin s.px s.py = ca := by rw [horigin, lowCellAddress]
  have hwindow := inWindow_iff s.lgOrigin s.px s.py
  rw [horigin] at hwindow
  rw [hmode1, ← hwindow, ← horigin, ← hcell]
  refine ⟨fun hw => ⟨fun hlt => ?_, fun hP hge => ?_⟩, fun hw => ?_⟩
  · rw [runRoutine_of_reads ((forall_lowReads_lt_inside (model := .direct) hw).2 ⟨hlt, nofun⟩), Routine.value,
      lowValue_inside _ hw]
    rfl
  · refine runRoutine_fatal hP fun hall => ?_
    exact absurd ((forall_lowReads_lt_inside hw).1 hall).1 (not_lt.2 hge)
  · rw [runRoutine_of_reads ((forall_lowReads_lt_outside (model := .direct) hw).2 nofun), Routine.value,
      lowValue_outside _ hw, cellValue, toColor_zero]
    rfl

/-- Settles O23: mode 5 inside the window, with its cell and that cell's palette entry, and outside it,
with palette entry 0. -/
theorem lowPalettedGraphicsIsWindowed : Obligations.LowPalettedGraphicsIsWindowed := by
  intro s hsize regs origin dx dy ca pa p0
  have hmode5 : exec .mode5 s = runRoutine (.graphics .low .paletted) s.px s.py regs s :=
    exec_decodeMode_of_le hsize 5#8
  have horigin : s.lgOrigin = origin := lgOrigin_eq s
  have hcell : lowCellAddress regs s.lgOrigin s.px s.py = ca := by rw [horigin, lowCellAddress]
  have hpa : entryAddress regs (cellIndex (s.mem.byteAt ca)) = pa := entryAddress_cellIndex regs _
  have hp0 : entryAddress regs 0 = p0 := rfl
  have hwindow := inWindow_iff s.lgOrigin s.px s.py
  rw [horigin] at hwindow
  rw [hmode5, ← hwindow, ← horigin, ← hpa, ← hcell, ← hp0]
  refine ⟨fun hw => ⟨fun hlt hentry => ?_, fun hP hout => ?_⟩,
    fun hw => ⟨fun hentry => ?_, fun hP hout => ?_⟩⟩
  · rw [runRoutine_of_reads ((forall_lowReads_lt_inside hw).2 ⟨hlt, fun _ => hentry⟩), Routine.value,
      lowValue_inside _ hw]
    rfl
  · refine runRoutine_fatal hP fun hall => ?_
    obtain ⟨hlt, hentry⟩ := (forall_lowReads_lt_inside hw).1 hall
    rcases hout with h | h
    · exact absurd hlt (not_lt.2 h)
    · exact absurd (hentry rfl) (not_lt.2 h)
  · rw [runRoutine_of_reads ((forall_lowReads_lt_outside hw).2 fun _ => hentry), Routine.value,
      lowValue_outside _ hw]
    rfl
  · refine runRoutine_fatal hP fun hall => ?_
    exact absurd ((forall_lowReads_lt_outside hw).1 hall rfl) (not_lt.2 hout)

/-! ### Blocks of one colour -/

/-- A text pixel counts through its glyph pixel alone (R116). -/
theorem textMode_congr {px py px' py' : Nat} (P : Params) (m : Memory) (regs : RegisterBlock)
    {res : Resolution} (model : ColorModel) (hx : px' / glyphScale res = px / glyphScale res)
    (hy : py' / glyphScale res = py / glyphScale res) :
    textMode P m px' py' regs res model = textMode P m px py regs res model := by
  have hcell : ∀ {p p' : Nat}, p' / glyphScale res = p / glyphScale res →
      textCell res p' = textCell res p := by
    intro p p' h
    rw [textCell_eq, textCell_eq, Nat.mul_comm, ← Nat.div_div_eq_div_mul, ← Nat.div_div_eq_div_mul, h]
  have hrow : glyphRow res py' = glyphRow res py := by rw [glyphRow_eq, glyphRow_eq, hy]
  have hcolumn : glyphColumn res px' = glyphColumn res px := by
    apply BitVec.eq_of_toNat_eq
    rw [glyphColumn_toNat, glyphColumn_toNat, hx]
  simp only [textMode, hcell hx, hcell hy, hrow, hcolumn]

/-- A high-resolution graphics pixel counts through its 4 × 4 cell alone (R126). -/
theorem highGraphics_congr {px py px' py' : Nat} (P : Params) (m : Memory) (regs : RegisterBlock)
    (model : ColorModel) (hx : px' / 4 = px / 4) (hy : py' / 4 = py / 4) :
    highGraphics P m px' py' regs model = highGraphics P m px py regs model := by
  simp only [highGraphics, hgCell, hgScale, hx, hy]

/-- The window is a whole number of cells wide, so a cell is inside or outside it as a whole. -/
theorem lgCell_congr {d d' : Int} (h : Int.fdiv d' 3 = Int.fdiv d 3) :
    ((0 ≤ d' ∧ d' < 576) ↔ (0 ≤ d ∧ d < 576)) ∧ lgCell d' = lgCell d := by
  simp only [Int.fdiv_eq_ediv_of_nonneg _ (by decide : (0 : Int) ≤ 3)] at h
  simp only [lgCell, lgScale]
  omega

/-- A low-resolution graphics pixel counts through its 3 × 3 cell alone (R127). -/
theorem lowGraphics_congr {px py px' py' : Nat} (P : Params) (m : Memory) {origin : Int × Int}
    (regs : RegisterBlock) (model : ColorModel)
    (hx : Int.fdiv ((px' : Int) - origin.1) 3 = Int.fdiv ((px : Int) - origin.1) 3)
    (hy : Int.fdiv ((py' : Int) - origin.2) 3 = Int.fdiv ((py : Int) - origin.2) 3) :
    lowGraphics P m origin px' py' regs model = lowGraphics P m origin px py regs model := by
  obtain ⟨hinX, hcellX⟩ := lgCell_congr hx
  obtain ⟨hinY, hcellY⟩ := lgCell_congr hy
  have hinside : inWindow origin px' py' = inWindow origin px py := by
    rw [Bool.eq_iff_iff, inWindow_iff, inWindow_iff]
    tauto
  rw [inWindow, inWindow] at hinside
  simp only [lowGraphics, hinside, hcellX, hcellY]

/-- Settles O24: each routine counts a pixel through its block alone. -/
theorem oneBlockHasOneColour : Obligations.OneBlockHasOneColour := by
  intro s px py px' py' regs model dx dy
  refine ⟨fun hx hy => ?_, fun hx hy => ?_, fun _ hx hy => ?_⟩
  · simp only [exec_textMode, runRoutine, Routine.color,
      textMode_congr (res := .low) s.params s.mem regs model hx hy]
  · have hcell := fun model => highGraphics_congr s.params s.mem regs model hx hy
    constructor <;> rw [exec_dispatch, exec_dispatch]
    · exact congrArg (fun r => deliver (Except.map Result.color r) s) (hcell .direct)
    · exact congrArg (fun r => deliver (Except.map Result.color r) s) (hcell .paletted)
  · have hcell := fun model => lowGraphics_congr s.params s.mem regs model hx hy
    constructor <;> rw [exec_dispatch, exec_dispatch]
    · exact congrArg (fun r => deliver (Except.map Result.color r) s) (hcell .direct)
    · exact congrArg (fun r => deliver (Except.map Result.color r) s) (hcell .paletted)

/-! ### `dispatch` -/

theorem runRoutine_high {s : State} {px py : Nat} {regs : RegisterBlock} (model : ColorModel)
    (h : highCellAddress regs px py < s.mem.size) :
    runRoutine (.graphics .high model) px py regs s =
      exec (.cellColor (s.mem.byteAt (highCellAddress regs px py)) model regs) s := by
  rw [exec_cellColor, ← highGraphics_of_lt model h]
  rfl

theorem runRoutine_low_inside {s : State} {px py : Nat} {regs : RegisterBlock} (model : ColorModel)
    (hw : inWindow s.lgOrigin px py = true) (h : lowCellAddress regs s.lgOrigin px py < s.mem.size) :
    runRoutine (.graphics .low model) px py regs s =
      exec (.cellColor (s.mem.byteAt (lowCellAddress regs s.lgOrigin px py)) model regs) s := by
  rw [exec_cellColor, ← lowGraphics_of_lt model hw h]
  rfl

theorem runRoutine_low_outside {s : State} {px py : Nat} {regs : RegisterBlock} (model : ColorModel)
    (hw : ¬inWindow s.lgOrigin px py = true) :
    runRoutine (.graphics .low model) px py regs s = exec (.cellColor 0#8 model regs) s := by
  rw [exec_cellColor, ← lowGraphics_outside model (Bool.eq_false_iff.2 hw)]
  rfl

/-- Settles O26: the routine of each mode byte, its cell byte read where it is in bounds. -/
theorem dispatchSelectsByTheFullByte : Obligations.DispatchSelectsByTheFullByte := by
  intro s mode px py regs selected high origin dx dy low inside
  have horigin : s.lgOrigin = origin := lgOrigin_eq s
  have hselected : selected = runRoutine (.ofMode mode) px py regs s := exec_dispatch mode px py regs s
  have hhigh : highCellAddress regs px py = high := rfl
  have hlow : lowCellAddress regs s.lgOrigin px py = low := by rw [horigin, lowCellAddress]
  have hinside : inWindow s.lgOrigin px py = true ↔ inside := by
    rw [horigin]
    exact inWindow_iff origin px py
  rw [hselected, ← hinside, ← hlow, ← hhigh]
  refine ⟨?_, ?_, ?_, ?_, ?_, ?_, ?_, ?_, ?_, ?_, ?_⟩
  · rintro rfl
    rfl
  · rintro rfl hw h
    exact runRoutine_low_inside .direct hw h
  · rintro rfl hw
    exact runRoutine_low_outside .direct hw
  · rintro rfl
    rfl
  · rintro rfl h
    exact runRoutine_high .direct h
  · rintro rfl
    rfl
  · rintro rfl hw h
    exact runRoutine_low_inside .paletted hw h
  · rintro rfl hw
    exact runRoutine_low_outside .paletted hw
  · rintro rfl
    rfl
  · rintro rfl h
    exact runRoutine_high .paletted h
  · intro hmode
    rw [ofMode_fallback (not_lt.2 hmode)]
    exact deliver_fallbackColor s

/-- Settles O27: both are the routine of the mode byte. -/
theorem dispatchIsTheDecodedRoutine : Obligations.DispatchIsTheDecodedRoutine := by
  intro s mode hsize
  rw [exec_dispatch, exec_decodeMode_of_le hsize]

/-- Settles O28: a routine delivers its colour or, under `fatal`, raises. -/
theorem dispatchCompletesOnInBoundsReads : Obligations.DispatchCompletesOnInBoundsReads := by
  intro s mode px py regs
  rw [exec_dispatch, routineReads_eq]
  exact ⟨fun h => ⟨_, runRoutine_of_reads h⟩, fun hP h => runRoutine_fatal hP (not_forall_lt_iff.2 h)⟩

end Sys2Proof.Machine
end

section
/-! PROOFS. One invocation (45_mode_dispatcher.md, 20_memory.md R40) and any one operation (R4, R148): the
bytes an invocation names and what its colour depends on, what an operation leaves unchanged, and the
statements that follow. -/

namespace Sys2Proof.Machine

/-! ### The bytes an invocation names -/

theorem forall_controlReads_lt {n : Nat} : (∀ a ∈ controlReads, a < n) ↔ 38 ≤ n := by
  simp only [controlReads, List.mem_range'_1]
  constructor
  · intro h
    have := h 37 (by omega)
    omega
  · intro h a ha
    omega

theorem forall_invocationReads_lt {s : State} {px py n : Nat} :
    (∀ a ∈ invocationReads s px py, a < n) ↔
      38 ≤ n ∧ ∀ a ∈ (Routine.ofMode s.mem.mode).reads s.mem s.lgOrigin px py s.mem.registers, a < n := by
  rw [invocationReads, List.forall_mem_append, forall_controlReads_lt, routineReads_eq]

/-- With the control block in bounds an invocation is the routine of the mode byte in memory (R103). -/
theorem pixelColor_of_le {s : State} (h : 38 ≤ s.mem.size) (px py : Nat) :
    pixelColor s px py =
      (Routine.ofMode s.mem.mode).color s.params s.mem s.lgOrigin px py s.mem.registers := by
  rw [pixelColor_of_parse (readDisplayRegisters_of_le h), dispatchColor_eq]

theorem pixelColor_of_reads {s : State} {px py : Nat}
    (h : ∀ a ∈ invocationReads s px py, a < s.mem.size) :
    pixelColor s px py =
      .ok ((Routine.ofMode s.mem.mode).value s.mem s.lgOrigin px py s.mem.registers) := by
  obtain ⟨hsize, hroutine⟩ := forall_invocationReads_lt.1 h
  rw [pixelColor_of_le hsize, color_of_reads hroutine]

/-- Under `fatal` an invocation with a read out of bounds raises: at the parse, or in its routine. -/
theorem pixelColor_of_read_fatal {s : State} {px py : Nat} (hP : s.params.oobPolicy = .fatal)
    (h : ¬∀ a ∈ invocationReads s px py, a < s.mem.size) :
    ∃ a, pixelColor s px py = .error (.outOfBounds a) := by
  rw [forall_invocationReads_lt] at h
  by_cases hsize : 38 ≤ s.mem.size
  · rw [pixelColor_of_le hsize]
    exact color_of_read_fatal hP fun hroutine => h ⟨hsize, hroutine⟩
  · obtain ⟨a, ha⟩ := readDisplayRegisters_fatal hP (not_le.1 hsize)
    exact ⟨a, pixelColor_of_parse_error ha⟩

/-- R107: a routine names three bytes and one palette entry at most. -/
theorem reads_length_le (m : Memory) (origin : Int × Int) (px py : Nat) (regs : RegisterBlock)
    (r : Routine) : (r.reads m origin px py regs).length ≤ 6 := by
  have hcell : ∀ (model : ColorModel) (a : Nat), (cellReads m regs model a).length ≤ 6 := by
    intro model a
    cases model <;> simp [cellReads, entryReads]
  match r with
  | .text res model => cases model <;> simp [Routine.reads, textReads, entryReads]
  | .graphics .low model =>
    rw [Routine.reads, lowReads.eq_def]
    split
    · exact hcell model _
    · cases model <;> simp [entryReads]
  | .graphics .high model => exact hcell model _
  | .fallback => simp [Routine.reads]

/-- Settles O31: reads in bounds give a colour, a read out of bounds the exception; 22 control bytes and at
most 6 of the routine. -/
theorem invocationRaisesIffANamedReadIsOutOfBounds :
    Obligations.InvocationRaisesIffANamedReadIsOutOfBounds := by
  intro s px py
  refine ⟨fun hP => ⟨?_, fun h => ?_⟩, fun a hlow hhigh => ?_, ?_⟩
  · rintro ⟨e, he⟩
    refine not_forall_lt_iff.1 fun hall => ?_
    rw [pixelColor_of_reads hall] at he
    cases he
  · obtain ⟨a, ha⟩ := pixelColor_of_read_fatal hP (not_forall_lt_iff.2 h)
    exact ⟨_, ha⟩
  · exact List.mem_append_left _ (List.mem_range'_1.2 (by omega))
  · have hroutine := reads_length_le s.mem s.lgOrigin px py s.mem.registers (.ofMode s.mem.mode)
    rw [invocationReads, routineReads_eq, List.length_append, controlReads, List.length_range']
    omega

/-- The mode byte and the registers are functions of the 22 control bytes. -/
theorem control_congr {m u : Memory} (h : ∀ a ∈ controlReads, m.byteAt a = u.byteAt a) :
    u.mode = m.mode ∧ u.registers = m.registers := by
  have hbyte : ∀ a, 16 ≤ a → a ≤ 37 → u.byteAt a = m.byteAt a := fun a hlow hhigh =>
    (h a (List.mem_range'_1.2 (by omega))).symm
  have hfield : ∀ a, 16 ≤ a → a ≤ 35 → u.field24 a = m.field24 a := by
    intro a hlow hhigh
    rw [Memory.field24, Memory.field24, hbyte a (by omega) (by omega),
      hbyte (a + 1) (by omega) (by omega), hbyte (a + 2) (by omega) (by omega)]
  refine ⟨hbyte 16 (by decide) (by decide), ?_⟩
  simp only [Memory.registers, hfield 17 (by decide) (by decide), hfield 20 (by decide) (by decide),
    hfield 23 (by decide) (by decide), hfield 26 (by decide) (by decide),
    hfield 29 (by decide) (by decide), hfield 32 (by decide) (by decide),
    hfield 35 (by decide) (by decide)]

/-- Settles O32: the second state names the same bytes, all in bounds, and they give the same colour. -/
theorem colourDependsOnNamedReadsOnly : Obligations.ColourDependsOnNamedReadsOnly := by
  intro s u px py hparams hW hH hwords hreads
  have hsize : u.mem.size = s.mem.size := congrArg (wordSize * ·) hwords.symm
  have horigin : u.lgOrigin = s.lgOrigin := by rw [State.lgOrigin, State.lgOrigin, hparams, hW, hH]
  have hbytes : ∀ a ∈ invocationReads s px py, s.mem.byteAt a = u.mem.byteAt a :=
    fun a ha => (hreads a ha).2
  have hlt : ∀ a ∈ invocationReads s px py, a < s.mem.size := fun a ha => (hreads a ha).1
  rw [invocationReads, List.forall_mem_append, routineReads_eq] at hbytes
  obtain ⟨hmode, hregs⟩ := control_congr hbytes.1
  obtain ⟨hsame, hvalue⟩ := value_congr hbytes.2
  have hult : ∀ a ∈ invocationReads u px py, a < u.mem.size := by
    rw [forall_invocationReads_lt, hsize, hmode, hregs, horigin, hsame]
    exact forall_invocationReads_lt.1 hlt
  refine ⟨_, pixelColor_of_reads hlt, ?_⟩
  rw [pixelColor_of_reads hult, hmode, hregs, horigin, hvalue]

/-! ### `pixel` -/

theorem exec_pixel_of_onGrid {s : State} {px py : Nat} (h : s.onGrid px py = true) :
    exec (.pixel px py) s = .next (runPixel px py s) := if_pos h

/-- A `pixel` that answers was on the grid. -/
theorem exec_pixel_next {s t : State} {px py : Nat} (h : exec (.pixel px py) s = .next t) :
    t = runPixel px py s := by
  by_cases hgrid : s.onGrid px py = true
  · rw [exec_pixel_of_onGrid hgrid] at h
    cases h
    rfl
  · have hrefused : exec (.pixel px py) s = .refused (.noSuchPixel px py) := if_neg hgrid
    rw [hrefused] at h
    cases h

theorem pixelAt_setPixel_self {s : State} {px py : Nat} (c : Color) (h : s.onGrid px py = true) :
    (s.setPixel px py c).pixelAt px py = some c := by
  have hcolor := colorAt_setPixel s px py (pixelIndex s.outW px py) c
  rw [if_pos rfl] at hcolor
  rw [State.pixelAt, setPixel_outW, hcolor]
  exact if_pos h

theorem pixelAt_setPixel_other {s : State} {px py x y : Nat} (c : Color) (h : s.onGrid px py = true)
    (hne : (x, y) ≠ (px, py)) : (s.setPixel px py c).pixelAt x y = s.pixelAt x y := by
  have hgrid : (s.setPixel px py c).onGrid x y = s.onGrid x y := rfl
  rw [State.pixelAt, State.pixelAt, hgrid]
  split
  · next hxy =>
    have hindex := (pixelIndex_eq_iff (p := (px, py)) hxy h).not.2 hne
    rw [setPixel_outW, colorAt_setPixel, if_neg hindex]
  · rfl

/-- Settles O29: the colour `dispatch` delivers is the one written, at its own number in the surface. -/
theorem pixelWritesItsOwnPixel : Obligations.PixelWritesItsOwnPixel := by
  intro s px py hx hy hreads
  have hgrid : s.onGrid px py = true := onGrid_iff.2 ⟨hx, hy⟩
  obtain ⟨-, hroutine⟩ := forall_invocationReads_lt.1 hreads
  let shown := { s with px := px, py := py }.withResult
    (.color ((Routine.ofMode s.mem.mode).value s.mem s.lgOrigin px py s.mem.registers))
  have hshown : shown.onGrid px py = true := hgrid
  refine ⟨_, shown.setPixel px py _, ?_, ?_, rfl, rfl, pixelAt_setPixel_self _ hshown,
    fun x y hne => pixelAt_setPixel_other (x := x) (y := y) _ hshown hne, rfl⟩
  · rw [exec_pixel_of_onGrid hgrid, runPixel_eq, pixelColor_of_reads hreads]
  · rw [exec_dispatch, runRoutine_of_reads hroutine]
    rfl

/-! ### Exceptions -/

/-- With no batch in flight an exception leaves the surface and the outcome alone (R140). -/
theorem takeException_out_of_no_batch {s : State} (e : Exception) (hb : s.batch = none) :
    (takeException e s).out = s.out ∧ (takeException e s).outcome = s.outcome := by
  obtain ⟨a, -, -, h⟩ | ⟨a, b, -, hsome, -⟩ := takeException_cases e s
  · rw [h]
    exact ⟨rfl, rfl⟩
  · rw [hb] at hsome
    cases hsome

/-- An exception raised during a batch leaves no pixel specified (R148, D16). -/
theorem takeException_pixels_of_batch {s : State} {b : Batch} (e : Exception) (hb : s.batch = some b) :
    (takeException e s).out.pixels = [] := by
  obtain ⟨a, -, hnone, -⟩ | ⟨a, b', -, -, h⟩ := takeException_cases e s
  · rw [hb] at hnone
    cases hnone
  · rw [h]
    rfl

/-- Settles O30: `pixel` takes the exception of its colour. -/
theorem faultingPixelWritesNothing : Obligations.FaultingPixelWritesNothing := by
  intro s px py hx hy hP hread
  obtain ⟨a, ha⟩ := pixelColor_of_read_fatal hP (not_forall_lt_iff.2 hread)
  refine ⟨takeException (.outOfBounds a) { s with px := px, py := py }, ?_, takeException_result _ _,
    by rw [takeException_oob, Option.isSome_some], takeException_mem _ _,
    fun hb => takeException_out_of_no_batch _ hb, fun hb => ?_⟩
  · rw [exec_pixel_of_onGrid (onGrid_iff.2 ⟨hx, hy⟩), runPixel_eq, ha]
  · obtain ⟨b, hb⟩ := Option.ne_none_iff_exists'.1 hb
    exact ⟨takeException_batch _ _, takeException_outcome_of_batch _ hb,
      takeException_pixels_of_batch _ hb⟩

/-- What an exception raised during a batch leaves: the batch has failed, and all but the batch, its
surface and the ports is as it was (R148). -/
theorem takeException_fails_batch {s : State} {b : Batch} (e : Exception) (hb : s.batch = some b) :
    (takeException e s).batch = none ∧ (takeException e s).outcome = some .failed ∧
      (takeException e s).result = .none ∧ (takeException e s).out.pixels = [] ∧
      (takeException e s).mem = s.mem ∧ (takeException e s).params = s.params ∧
      (takeException e s).outW = s.outW ∧ (takeException e s).outH = s.outH ∧
      (takeException e s).inbox = s.inbox :=
  ⟨takeException_batch e s, takeException_outcome_of_batch e hb, takeException_result e s,
    takeException_pixels_of_batch e hb, takeException_mem e s, takeException_params e s,
    takeException_outW e s, takeException_outH e s, takeException_inbox e s⟩

/-- Settles O40: the operations that are not the host's raise by taking the exception, `pixel` with its
coordinate current. -/
theorem exceptionDuringABatchFailsIt : Obligations.ExceptionDuringABatchFailsIt := by
  intro i s t b hb _ hlaunch hframe habandon hexec hoob
  obtain ⟨v, -, rfl, -⟩ | ⟨e, rfl⟩ | ⟨x, y, -, -, rfl⟩ | ⟨w, k, rfl, -⟩ | ⟨w, k, rfl, -⟩ | ⟨rfl, -⟩ :=
    exec_cases hexec
  · exact absurd rfl hoob
  · exact takeException_fails_batch e hb
  · rw [runPixel_eq] at hoob ⊢
    cases hc : pixelColor s x y with
    | ok c =>
      rw [hc] at hoob
      exact absurd rfl hoob
    | error e => exact takeException_fails_batch (s := { s with px := x, py := y }) e hb
  · exact absurd rfl (hframe w k)
  · exact absurd rfl (hlaunch w k)
  · exact absurd rfl habandon

/-! ### What an operation leaves unchanged -/

/-- No operation touches the memory, the parameters or the queue (R4, R21). -/
theorem exec_keeps {i : Instr} {s t : State} (h : exec i s = .next t) :
    t.mem = s.mem ∧ t.params = s.params ∧ t.inbox = s.inbox := by
  obtain ⟨v, -, rfl, -⟩ | ⟨e, rfl⟩ | ⟨x, y, -, -, rfl⟩ | ⟨w, k, -, -, -, rfl⟩ | ⟨w, k, -, -, -, rfl⟩ |
    ⟨-, -, rfl⟩ := exec_cases h
  · exact ⟨rfl, rfl, rfl⟩
  · exact ⟨takeException_mem e s, takeException_params e s, takeException_inbox e s⟩
  · obtain ⟨hmem, hparams, hinbox, -, -⟩ := runPixel_frame x y s
    exact ⟨hmem, hparams, hinbox⟩
  · obtain ⟨hmem, hparams, -, -, hinbox, -⟩ := runFrame_frame (gridPixels w k) (startBatch w k s)
    exact ⟨hmem, hparams, hinbox⟩
  · exact ⟨rfl, rfl, rfl⟩
  · exact ⟨rfl, rfl, rfl⟩

/-- Settles O41: with the memory every byte and its size stay. -/
theorem noOperationWritesMemory : Obligations.NoOperationWritesMemory := by
  intro i s t h
  obtain ⟨hmem, hparams, hinbox⟩ := exec_keeps h
  exact ⟨fun a => by rw [hmem], by rw [hmem], hparams, hinbox⟩

/-- Settles O42: an operation other than the four delivers its value or raises, and an exception shows on
the port. -/
theorem operationsDeliverAValueOnly : Obligations.OperationsDeliverAValueOnly := by
  intro i s t hpixel hframe hlaunch habandon hexec hoob
  obtain ⟨v, hv, rfl, -⟩ | ⟨⟨a⟩, rfl⟩ | ⟨x, y, rfl, -⟩ | ⟨w, k, rfl, -⟩ | ⟨w, k, rfl, -⟩ | ⟨rfl, -⟩ :=
    exec_cases hexec
  · exact ⟨fun _ => rfl, rfl, hv⟩
  · rw [takeException_oob] at hoob
    cases hoob
  · exact absurd rfl (hpixel x y)
  · exact absurd rfl (hframe w k)
  · exact absurd rfl (hlaunch w k)
  · exact absurd rfl habandon

end Sys2Proof.Machine
end

section
/-! PROOFS. The host and the writer (60_exceptions.md): the inputs between batches and the steps of a batch
in flight, and the statements that follow. -/

namespace Sys2Proof.Machine

/-! ### The host's operations -/

theorem gridLegal_iff {w h : Nat} : gridLegal w h = true ↔ 1 ≤ w ∧ 1 ≤ h := by
  simp [gridLegal]

theorem exec_launch_of_no_batch {s : State} {w h : Nat} (hb : s.batch = none) :
    exec (.launch w h) s =
      if gridLegal w h then .next (startBatch w h s) else .refused .emptyGrid := by
  simp [exec, execLaunch, hb]

theorem exec_frame_of_no_batch {s : State} {w h : Nat} (hb : s.batch = none) :
    exec (.frame w h) s =
      if gridLegal w h then .next (runFrame (gridPixels w h) (startBatch w h s))
      else .refused .emptyGrid := by
  simp [exec, execFrame, hb]

theorem exec_launch_of_legal {s : State} {w h : Nat} (hb : s.batch = none) (hw : 1 ≤ w) (hh : 1 ≤ h) :
    exec (.launch w h) s = .next (startBatch w h s) := by
  rw [exec_launch_of_no_batch hb, if_pos (gridLegal_iff.2 ⟨hw, hh⟩)]

theorem exec_frame_of_legal {s : State} {w h : Nat} (hb : s.batch = none) (hw : 1 ≤ w) (hh : 1 ≤ h) :
    exec (.frame w h) s = .next (runFrame (gridPixels w h) (startBatch w h s)) := by
  rw [exec_frame_of_no_batch hb, if_pos (gridLegal_iff.2 ⟨hw, hh⟩)]

theorem exec_abandon_of_batch {s : State} {b : Batch} (hb : s.batch = some b) :
    exec .abandon s = .next (endWithoutFrame .abandoned s) := by
  simp [exec, execAbandon, hb]

theorem exec_abandon_of_no_batch {s : State} (hb : s.batch = none) :
    exec .abandon s = .refused .noBatchInFlight := by
  simp [exec, execAbandon, hb]

theorem exec_of_empty_grid {s : State} {w h : Nat} (hb : s.batch = none) (hz : w = 0 ∨ h = 0) :
    exec (.launch w h) s = .refused .emptyGrid ∧ exec (.frame w h) s = .refused .emptyGrid := by
  have hempty : ¬gridLegal w h = true := by
    rw [gridLegal_iff]
    omega
  rw [exec_launch_of_no_batch hb, exec_frame_of_no_batch hb, if_neg hempty, if_neg hempty]
  exact ⟨rfl, rfl⟩

theorem exec_of_batch_in_flight {s : State} (w h : Nat) (hb : s.batch ≠ none) :
    exec (.launch w h) s = .refused .batchInFlight ∧
      exec (.frame w h) s = .refused .batchInFlight :=
  have hsome : s.batch.isSome = true := Option.isSome_iff_ne_none.2 hb
  ⟨if_pos hsome, if_pos hsome⟩

/-- A launch that answers was made with no batch in flight, on a legal grid. -/
theorem exec_launch_next {s t : State} {w h : Nat} (hexec : exec (.launch w h) s = .next t) :
    s.batch = none ∧ 1 ≤ w ∧ 1 ≤ h ∧ t = startBatch w h s := by
  by_cases hb : s.batch = none
  · rw [exec_launch_of_no_batch hb] at hexec
    split at hexec
    · next hg =>
      cases hexec
      obtain ⟨hw, hh⟩ := gridLegal_iff.1 hg
      exact ⟨hb, hw, hh, rfl⟩
    · cases hexec
  · rw [(exec_of_batch_in_flight w h hb).1] at hexec
    cases hexec

/-- A frame that answers was asked for with no batch in flight. -/
theorem exec_frame_next {s t : State} {w h : Nat} (hexec : exec (.frame w h) s = .next t) :
    t = runFrame (gridPixels w h) (startBatch w h s) := by
  by_cases hb : s.batch = none
  · rw [exec_frame_of_no_batch hb] at hexec
    split at hexec
    · cases hexec
      rfl
    · cases hexec
  · rw [(exec_of_batch_in_flight w h hb).2] at hexec
    cases hexec

/-! ### Steps between batches -/

/-- R44: between batches the oldest input is taken. -/
theorem step_of_input {s : State} {i : Input} {rest : List Input} (hb : s.batch = none)
    (hi : s.inbox = i :: rest) : step s = deliverInput i { s with inbox := rest } := by
  simp only [step, hb, stepIdle, hi]

theorem step_of_idle {s : State} (hb : s.batch = none) (hi : s.inbox = []) : step s = .next s := by
  simp only [step, hb, stepIdle, hi]

theorem deliverInput_launch (w h : Nat) (s : State) :
    deliverInput (.launch w h) s = exec (.launch w h) s := rfl

theorem deliverInput_abandon (s : State) : deliverInput .abandon s = exec .abandon s := rfl

theorem deliverInput_store_of_lt {s : State} {a : Nat} (v : Byte) (h : a < s.mem.size) :
    deliverInput (.store a v) s = .next { s with mem := s.mem.write a v } :=
  if_pos (inBounds_iff.2 h)

theorem deliverInput_store_of_ge {s : State} {a : Nat} (v : Byte) (h : s.mem.size ≤ a) :
    deliverInput (.store a v) s = .fault (.noSuchByte a) :=
  if_neg fun hlt => not_lt.2 h (inBounds_iff.1 hlt)

/-! ### Steps of a batch in flight -/

/-- R149: an abandonment at the head of the queue is taken at once. -/
theorem step_of_abandon {s : State} {b : Batch} {rest : List Input} (hb : s.batch = some b)
    (hi : s.inbox = .abandon :: rest) :
    step s = .next (endWithoutFrame .abandoned { s with inbox := rest }) := by
  have hstep : step s = exec .abandon { s with inbox := rest } := by
    simp only [step, hb, stepBatch, hi]
  exact hstep.trans (exec_abandon_of_batch (s := { s with inbox := rest }) hb)

/-- An invocation touches neither the memory, nor the parameters, nor the queue. -/
theorem invoke_keeps {s t : State} {b : Batch} (h : invoke b s = .next t) :
    t.mem = s.mem ∧ t.params = s.params ∧ t.inbox = s.inbox := by
  obtain ⟨-, hinvoke⟩ | ⟨p, -, -, ⟨c, -, hinvoke⟩ | ⟨e, -, hinvoke⟩⟩ := invoke_cases b s <;>
    (rw [hinvoke] at h; cases h)
  · exact ⟨rfl, rfl, rfl⟩
  · rw [retire_color c (issue_batch p b s)]
    split <;> exact ⟨rfl, rfl, rfl⟩
  · exact ⟨takeException_mem _ _, takeException_params _ _, takeException_inbox _ _⟩

theorem invoke_answers_next (b : Batch) (s : State) : ∃ t, invoke b s = .next t := by
  obtain ⟨-, h⟩ | ⟨p, -, -, ⟨c, -, h⟩ | ⟨e, -, h⟩⟩ := invoke_cases b s <;> exact ⟨_, h⟩

/-- Whether an abandonment is the oldest input. -/
theorem abandon_or_not (l : List Input) :
    (∃ rest, l = .abandon :: rest) ∨ ∀ rest, l ≠ .abandon :: rest := by
  by_cases h : ∃ rest, l = .abandon :: rest
  · exact .inl h
  · exact .inr (not_exists.1 h)

/-! ### The statements -/

/-- Settles O33: a launch is `startBatch`, whose pending coordinates are those of the grid. -/
theorem launchMakesEveryPixelPending : Obligations.LaunchMakesEveryPixelPending := by
  intro s w h hb hw hh
  exact ⟨_, _, exec_launch_of_legal hb hw hh, rfl, gridPixels_nodup w h, fun _ _ => mem_gridPixels,
    rfl, rfl, rfl, rfl, rfl, rfl, rfl, rfl, rfl, rfl, rfl⟩

/-- Settles O34: an abandonment ends the batch without a frame. -/
theorem abandonEndsTheBatch : Obligations.AbandonEndsTheBatch := by
  intro s b hb
  exact ⟨_, exec_abandon_of_batch hb, rfl, rfl, rfl, rfl, rfl, rfl, rfl, rfl, rfl, rfl, rfl, rfl⟩

/-- Settles O35: each operation tests its precondition, and the queue the address of a store. -/
theorem hostOperationsOutsideTheirPreconditions :
    Obligations.HostOperationsOutsideTheirPreconditions := by
  intro s w h px py a v rest
  refine ⟨exec_of_batch_in_flight w h, exec_of_empty_grid, exec_abandon_of_no_batch, fun hgrid => ?_,
    fun hb hi ha => ?_⟩
  · exact if_neg (onGrid_iff.not.2 hgrid)
  · rw [step_of_input hb hi]
    exact deliverInput_store_of_ge v ha

/-- Settles O43: the issued invocation parses the byte, runs its instruction and retires it. -/
theorem stepRunsTheDecodedInstruction : Obligations.StepRunsTheDecodedInstruction := by
  intro s t b p i hb hinbox hp hsize hdecode _ hexec
  rw [decode_singleton] at hdecode
  have hmode : decodeMode (issue p b s).mem.mode = i := Except.ok.inj hdecode
  have hparse := readDisplayRegisters_of_le (P := (issue p b s).params) (m := (issue p b s).mem) hsize
  rw [step_of_batch hb hinbox]
  simp only [invoke, hp, runInvocation, hparse, hmode, hexec]

/-- Settles O44: `pixel` at the issued coordinate leaves the same state as the routine and its
retirement, up to the end of the batch. -/
theorem batchStepIsOnePixel : Obligations.BatchStepIsOnePixel := by
  intro s b h hb hinbox
  obtain ⟨-, -, hne, -, hgrid, -⟩ := h.inFlight b hb
  obtain ⟨p, hp, hanswer⟩ := invoke_answers s hne
  have hpixel : exec (.pixel p.1 p.2) (issue p b s) = .next (runPixel p.1 p.2 (issue p b s)) :=
    exec_pixel_of_onGrid (hgrid p hp)
  have hcolor : pixelColor (issue p b s) p.1 p.2 = pixelColor s p.1 p.2 :=
    pixelColor_congr rfl rfl rfl rfl _ _
  refine ⟨p, _, hp, hpixel, ?_⟩
  rw [step_of_batch hb hinbox, runPixel_eq, hcolor]
  obtain ⟨e, he, hinvoke⟩ | ⟨c, hc, ⟨hlast, hinvoke⟩ | ⟨hmore, hinvoke⟩⟩ := hanswer
  · simp only [hinvoke, he, takeException_batch, reduceCtorEq, if_false]
    rfl
  · simp only [hinvoke, hc, setPixel_batch, withResult_batch, issue_batch, hlast, if_true]
    rfl
  · simp only [hinvoke, hc, setPixel_batch, withResult_batch, issue_batch, Option.some.injEq,
      Batch.mk.injEq, hmore, if_false]
    rfl

/-- Settles O45: an abandonment takes itself from the queue, an invocation nothing. -/
theorem memoryIsASnapshotDuringABatch : Obligations.MemoryIsASnapshotDuringABatch := by
  intro s t b hb hstep
  rcases abandon_or_not s.inbox with ⟨rest, hi⟩ | hi
  · rw [step_of_abandon hb hi] at hstep
    cases hstep
    exact ⟨rfl, rfl, .inr ⟨hi, rfl⟩⟩
  · rw [step_of_batch hb hi] at hstep
    obtain ⟨hmem, hparams, hinbox⟩ := invoke_keeps hstep
    exact ⟨hmem, hparams, .inl hinbox⟩

/-- Settles O46: an abandonment and an invocation both answer a next state. -/
theorem batchStepsNeverStop : Obligations.BatchStepsNeverStop := by
  intro s b _ hb
  rcases abandon_or_not s.inbox with ⟨rest, hi⟩ | hi
  · exact ⟨_, step_of_abandon hb hi⟩
  · rw [step_of_batch hb hi]
    exact invoke_answers_next b s

/-- Settles O47: the parse raises in every invocation, so the one that runs fails the batch. -/
theorem shortMemoryFailsEveryBatch : Obligations.ShortMemoryFailsEveryBatch := by
  intro s b hb hinbox hne hP hshort
  obtain ⟨a, hparse⟩ := readDisplayRegisters_fatal hP hshort
  obtain ⟨p, -, ⟨e, -, hinvoke⟩ | ⟨c, hc, -⟩⟩ := invoke_answers s hne
  · rw [step_of_batch hb hinbox]
    exact ⟨_, hinvoke, takeException_batch _ _, takeException_outcome_of_batch e (issue_batch p b s),
      takeException_pixels_of_batch e (issue_batch p b s)⟩
  · rw [pixelColor_of_parse_error hparse] at hc
    cases hc

/-- Settles O48: the step is the store, with the laws of `Memory.write`. -/
theorem writerStoresBetweenBatches : Obligations.WriterStoresBetweenBatches := by
  intro s a v rest hwf hb hi ha
  refine ⟨_, (step_of_input hb hi).trans (deliverInput_store_of_lt v ha), ?_, fun c hne => ?_, rfl,
    write_wf hwf v ha, rfl⟩
  · exact (byteAt_write hwf a a v).trans (if_pos rfl)
  · exact (byteAt_write hwf a c v).trans (if_neg hne)

/-- Settles O49: the abandonment at the head of the queue is the step. -/
theorem abandonmentIsTakenDuringABatch : Obligations.AbandonmentIsTakenDuringABatch := by
  intro s b rest hb hi
  exact ⟨_, step_of_abandon hb hi, rfl, rfl, rfl, rfl, rfl⟩

/-- Settles O50: without a batch and without an input a step changes nothing. -/
theorem blockIsIdleBetweenBatches : Obligations.BlockIsIdleBetweenBatches := fun _ => step_of_idle

/-- Settles O60: the step runs the host's operation on the rest of the queue. -/
theorem hostInputsAreTakenBetweenBatches : Obligations.HostInputsAreTakenBetweenBatches := by
  intro s w h rest hb
  refine ⟨fun hi hw hh => ?_, fun hi hz => ?_, fun hi => ?_⟩
  · have hlaunch : exec (.launch w h) { s with inbox := rest } =
        .next (startBatch w h { s with inbox := rest }) := exec_launch_of_legal hb hw hh
    rw [step_of_input hb hi, deliverInput_launch]
    exact ⟨_, _, hlaunch, hlaunch, rfl, fun _ _ => mem_gridPixels, rfl, rfl, rfl, rfl, rfl⟩
  · rw [step_of_input hb hi, deliverInput_launch]
    exact (exec_of_empty_grid (s := { s with inbox := rest }) hb hz).1
  · rw [step_of_input hb hi, deliverInput_abandon]
    exact exec_abandon_of_no_batch hb

end Sys2Proof.Machine
end

section
/-! PROOFS. Whole batches (60_exceptions.md, completion and failure; 70, the writer's contract): that a frame
and the steps of a batch in any order end alike is shown by one description of their end (`BatchEnd`), and
the statements follow from it. -/

namespace Sys2Proof.Machine

/-! ### The end of a batch -/

/-- The two states have what a pixel's colour depends on (R107) in common. -/
structure SameSnapshot (s t : State) : Prop where
  mem : t.mem = s.mem
  params : t.params = s.params
  outW : t.outW = s.outW
  outH : t.outH = s.outH

theorem SameSnapshot.pixelColor {s t : State} (h : SameSnapshot s t) (x y : Nat) :
    pixelColor t x y = pixelColor s x y :=
  pixelColor_congr h.params h.mem h.outW h.outH x y

theorem SameSnapshot.onGrid {s t : State} (h : SameSnapshot s t) (x y : Nat) :
    t.onGrid x y = s.onGrid x y := by
  rw [State.onGrid, State.onGrid, h.outW, h.outH]

theorem SameSnapshot.trans {s t u : State} (h : SameSnapshot s t) (h' : SameSnapshot t u) :
    SameSnapshot s u where
  mem := h'.mem.trans h.mem
  params := h'.params.trans h.params
  outW := h'.outW.trans h.outW
  outH := h'.outH.trans h.outH

theorem sameSnapshot_takeException (e : Exception) (s : State) :
    SameSnapshot s (takeException e s) where
  mem := takeException_mem e s
  params := takeException_params e s
  outW := takeException_outW e s
  outH := takeException_outH e s

/-- `t` is how a batch on the snapshot `u` may end: failed, where an invocation raises (R148), or completed
with every pixel painted (R147). -/
structure BatchEnd (u t : State) : Prop where
  batch : t.batch = none
  snapshot : SameSnapshot u t
  ended : (t.outcome = some .failed ∧ ∃ x y e, u.onGrid x y = true ∧ pixelColor u x y = .error e) ∨
    (t.outcome = some .completed ∧ ShowsFrame t)

theorem BatchEnd.of_sameSnapshot {u u' t : State} (h : BatchEnd u t) (hu : SameSnapshot u' u) :
    BatchEnd u' t where
  batch := h.batch
  snapshot := hu.trans h.snapshot
  ended := by
    obtain ⟨hout, x, y, e, hxy, he⟩ | hcompleted := h.ended
    · exact .inl ⟨hout, x, y, e, hu.onGrid x y ▸ hxy, hu.pixelColor x y ▸ he⟩
    · exact .inr hcompleted

/-- Where no invocation raises the batch has completed. -/
theorem BatchEnd.completed {u t : State} (h : BatchEnd u t)
    (hok : ∀ x y, u.onGrid x y = true → ∃ c, pixelColor u x y = .ok c) :
    t.outcome = some .completed ∧ ShowsFrame t := by
  obtain ⟨-, x, y, e, hxy, he⟩ | hcompleted := h.ended
  · obtain ⟨c, hc⟩ := hok x y hxy
    rw [hc] at he
    cases he
  · exact hcompleted

/-- In a completed batch no invocation raises. -/
theorem BatchEnd.colors {u t : State} (h : BatchEnd u t) (hshows : ShowsFrame t) (x y : Nat)
    (hxy : u.onGrid x y = true) : ∃ c, pixelColor u x y = .ok c :=
  ⟨_, (h.snapshot.pixelColor x y).symm.trans (hshows x y ((h.snapshot.onGrid x y).trans hxy))⟩

theorem pixelAt_eq_of_showsFrame {s t : State} (h : SameSnapshot s t) (hs : ShowsFrame s)
    (ht : ShowsFrame t) (x y : Nat) : s.pixelAt x y = t.pixelAt x y := by
  by_cases hxy : s.onGrid x y = true
  · obtain ⟨c, hcs, hc⟩ := hs.pixelAt hxy
    obtain ⟨d, hdt, hd⟩ := ht.pixelAt ((h.onGrid x y).trans hxy)
    rw [h.pixelColor, hc] at hd
    rw [hcs, hdt, Except.ok.inj hd]
  · rw [State.pixelAt, State.pixelAt, if_neg hxy, if_neg (by rwa [h.onGrid])]

/-- Two ends of a batch on one snapshot have one outcome and, completed, one image. -/
theorem BatchEnd.unique {u t t' : State} (h : BatchEnd u t) (h' : BatchEnd u t') :
    t.outcome = t'.outcome ∧
      (t.outcome = some .completed → ∀ x y, t.pixelAt x y = t'.pixelAt x y) := by
  obtain ⟨hout, x, y, e, hxy, he⟩ | ⟨hout, hshows⟩ := h.ended
  · obtain ⟨hout', -⟩ | ⟨-, hshows'⟩ := h'.ended
    · refine ⟨hout.trans hout'.symm, fun hcompleted => ?_⟩
      rw [hout] at hcompleted
      cases hcompleted
    · obtain ⟨c, hc⟩ := h'.colors hshows' x y hxy
      rw [hc] at he
      cases he
  · obtain ⟨hout', hshows'⟩ := h'.completed (h.colors hshows)
    have hsame : SameSnapshot t t' :=
      { mem := h'.snapshot.mem.trans h.snapshot.mem.symm
        params := h'.snapshot.params.trans h.snapshot.params.symm
        outW := h'.snapshot.outW.trans h.snapshot.outW.symm
        outH := h'.snapshot.outH.trans h.snapshot.outH.symm }
    exact ⟨hout.trans hout'.symm, fun _ => pixelAt_eq_of_showsFrame hsame hshows hshows'⟩

/-! ### The frame -/

theorem sameSnapshot_runFrame (l : List (Nat × Nat)) (u : State) : SameSnapshot u (runFrame l u) := by
  obtain ⟨hmem, hparams, hW, hH, -, -⟩ := runFrame_frame l u
  exact ⟨hmem, hparams, hW, hH⟩

/-- A frame over the coordinates of its grid ends the batch it was started for. -/
theorem runFrame_ends {u : State} {b : Batch} {l : List (Nat × Nat)} (hb : u.batch = some b)
    (hl : ∀ p, p ∈ l ↔ u.onGrid p.1 p.2 = true) : BatchEnd u (runFrame l u) where
  batch := by
    obtain ⟨-, -, -, -, -, hbatch⟩ := runFrame_frame l u
    exact hbatch
  snapshot := sameSnapshot_runFrame l u
  ended := by
    have hsame := sameSnapshot_runFrame l u
    obtain ⟨p, hp, a, ha, hrun⟩ | ⟨hok, hrest⟩ := runFrame_cases l u
    · refine .inl ⟨?_, p.1, p.2, _, (hl p).1 hp, ha⟩
      rw [hrun]
      exact takeException_outcome_of_batch (b := b) _ hb
    · refine .inr ?_
      obtain ⟨hnil, hrun⟩ | ⟨p, -, hrun⟩ := hrest
      · refine ⟨by rw [hrun]; rfl, fun x y hxy => ?_⟩
        have hmem := (hl (x, y)).2 ((hsame.onGrid x y).symm.trans hxy)
        rw [hnil] at hmem
        cases hmem
      · refine ⟨by rw [hrun]; rfl, fun x y hxy => ?_⟩
        have hgrid : u.onGrid x y = true := (hsame.onGrid x y).symm.trans hxy
        have hpainted := (paintPixels_colorAt hok (fun p hp => (hl p).1 hp) hgrid).1 ((hl (x, y)).2 hgrid)
        rw [hsame.pixelColor, hsame.outW, hrun]
        exact hpainted

theorem frame_ends (s : State) (w h : Nat) :
    BatchEnd (startBatch w h s) (runFrame (gridPixels w h) (startBatch w h s)) :=
  runFrame_ends rfl fun p =>
    mem_gridPixels.trans (onGrid_iff (s := startBatch w h s) (px := p.1) (py := p.2)).symm

/-- Settles O36: no invocation raises, so the frame has completed and shows every pixel. -/
theorem frameWithoutExceptionCompletes : Obligations.FrameWithoutExceptionCompletes := by
  intro s w h hb hw hh hok
  have hend := frame_ends s w h
  obtain ⟨hout, hshows⟩ := hend.completed fun x y hxy =>
    hok x y (onGrid_iff.1 hxy).1 (onGrid_iff.1 hxy).2
  refine ⟨_, exec_frame_of_legal hb hw hh, hend.batch, hout, hend.snapshot.mem, hend.snapshot.outW,
    hend.snapshot.outH, fun x y => ⟨fun hxy => ?_, fun hxy => if_neg ?_⟩⟩
  · obtain ⟨c, hat, hc⟩ := hshows.pixelAt ((hend.snapshot.onGrid x y).trans (onGrid_iff.2 hxy))
    exact ⟨c, (hend.snapshot.pixelColor x y).symm.trans hc, hat⟩
  · rw [hend.snapshot.onGrid]
    exact onGrid_iff.not.2 hxy

/-- Settles O37: not every invocation has a colour, so one that raises is taken. -/
theorem frameWithAnExceptionFails : Obligations.FrameWithAnExceptionFails := by
  intro s w h hb hw hh hraises
  obtain ⟨x, y, e, hx, hy, he⟩ := hraises
  obtain ⟨p, hp, a, ha, hrun⟩ | ⟨hok, -⟩ := runFrame_cases (gridPixels w h) (startBatch w h s)
  · have hbatch := startBatch_batch w h s
    obtain ⟨hpx, hpy⟩ := mem_gridPixels.1 hp
    refine ⟨_, exec_frame_of_legal hb hw hh, ?_⟩
    rw [hrun]
    refine ⟨takeException_batch _ _, takeException_outcome_of_batch _ hbatch,
      takeException_pixels_of_batch _ hbatch, takeException_mem _ _, takeException_params _ _,
      takeException_result _ _, ?_, ?_, a, takeException_oob _ _, ?_⟩
    · rw [takeException_px]
      exact hpx
    · rw [takeException_py]
      exact hpy
    · rw [takeException_px, takeException_py]
      exact ha
  · obtain ⟨c, hc⟩ := hok (x, y) (mem_gridPixels.2 ⟨hx, hy⟩)
    rw [hc] at he
    cases he

/-- Settles O39: both frames end a batch on the same snapshot. -/
theorem frameForgetsEarlierBatches : Obligations.FrameForgetsEarlierBatches := by
  intro s u s' u' w h hmem hparams hs hu
  have hsame : SameSnapshot (startBatch w h s) (startBatch w h u) :=
    { mem := hmem.symm, params := hparams.symm, outW := rfl, outH := rfl }
  rw [exec_frame_next hs, exec_frame_next hu]
  exact (frame_ends s w h).unique ((frame_ends u w h).of_sameSnapshot hsame)

/-! ### The writer's contract -/

/-- R162, clause by clause. -/
theorem writerContract_iff {m : Memory} :
    writerContract m = true ↔
      38 ≤ m.size ∧
        (8 ≤ m.mode.toNat ∨
          0 < m.registers.width.toNat ∧ 0 < m.registers.height.toNat ∧
            (if m.mode.getLsbD 0 then m.registers.screen.toNat + planeSize m.registers ≤ m.size
              else m.registers.screen.toNat + 2 * planeSize m.registers ≤ m.size ∧
                m.registers.font.toNat + 2048 ≤ m.size) ∧
            (m.mode.getLsbD 2 = true → m.registers.palette.toNat + 48 ≤ m.size)) := by
  unfold writerContract
  cases m.mode.getLsbD 0 <;> cases m.mode.getLsbD 2 <;> simp [and_assoc]

theorem modeModel_paletted {mode : Byte} (h : modeModel mode = .paletted) : mode.getLsbD 2 = true := by
  by_contra hbit
  rw [modeModel, if_neg hbit] at h
  cases h

/-- A palette entry lies in the 48 bytes of the palette (R38). -/
theorem entryAddress_lt (regs : RegisterBlock) (index : Nat) :
    entryAddress regs index + 2 < regs.palette.toNat + 48 := by
  rw [entryAddress]
  omega

/-- The three reads of a text routine, where its regions are in bounds (R122). -/
theorem text_reads_lt {m : Memory} {regs : RegisterBlock} {res : Resolution} {model : ColorModel}
    {px py : Nat} (hw : 0 < regs.width.toNat) (hh : 0 < regs.height.toNat)
    (hplanes : regs.screen.toNat + 2 * planeSize regs ≤ m.size)
    (hfont : regs.font.toNat + 2048 ≤ m.size)
    (hpalette : model = .paletted → regs.palette.toNat + 48 ≤ m.size) :
    ∀ a ∈ textReads m regs res model px py, a < m.size := by
  have hregions := textReadsStayInTheirRegions m regs res px py (by bv_omega) (by bv_omega)
  obtain ⟨-, hchar, -, hattr, -, hglyph⟩ := hregions
  unfold planeSize at hplanes
  refine forall_textReads_lt.2 ⟨by omega, by omega, by omega, fun hmodel => ?_⟩
  exact (entryAddress_lt regs _).trans_le (hpalette hmodel)

/-- The reads of a graphics routine, where its plane and its palette are in bounds. -/
theorem graphics_reads_lt {m : Memory} {regs : RegisterBlock} {res : Resolution} {model : ColorModel}
    {origin : Int × Int} {px py : Nat} (hw : 0 < regs.width.toNat) (hh : 0 < regs.height.toNat)
    (hplane : regs.screen.toNat + planeSize regs ≤ m.size)
    (hpalette : model = .paletted → regs.palette.toNat + 48 ≤ m.size) :
    ∀ a ∈ (Routine.graphics res model).reads m origin px py regs, a < m.size := by
  have hcell : ∀ x y, toByteAddress x y regs < m.size := fun x y =>
    (toByteAddress_lt x y hw hh).trans_le hplane
  have hentry : ∀ index, model = .paletted → entryAddress regs index + 2 < m.size :=
    fun index hmodel => (entryAddress_lt regs index).trans_le (hpalette hmodel)
  cases res with
  | high => exact forall_highReads_lt.2 ⟨hcell _ _, hentry _⟩
  | low =>
    by_cases hin : inWindow origin px py = true
    · exact (forall_lowReads_lt_inside hin).2 ⟨hcell _ _, hentry _⟩
    · exact (forall_lowReads_lt_outside hin).2 (hentry 0)

/-- Under the writer's contract every invocation has its reads in bounds (R162). -/
theorem writerContract_reads {s : State} (h : writerContract s.mem = true) (px py : Nat) :
    ∀ a ∈ invocationReads s px py, a < s.mem.size := by
  obtain ⟨hsize, hmode⟩ := writerContract_iff.1 h
  refine forall_invocationReads_lt.2 ⟨hsize, ?_⟩
  by_cases hlt : s.mem.mode.toNat < 8
  · obtain ⟨hw, hh, hregions, hpalette⟩ := hmode.resolve_left (not_le.2 hlt)
    have hentry : modeModel s.mem.mode = .paletted → s.mem.registers.palette.toNat + 48 ≤ s.mem.size :=
      fun hmodel => hpalette (modeModel_paletted hmodel)
    rw [Routine.ofMode, if_pos hlt]
    split at hregions
    · next hgraphics =>
      rw [if_pos hgraphics]
      exact graphics_reads_lt hw hh hregions hentry
    · next htext =>
      rw [if_neg htext]
      exact text_reads_lt hw hh hregions.1 hregions.2 hentry
  · rw [ofMode_fallback hlt]
    exact fun _ ha => absurd ha List.not_mem_nil

/-- Settles O38: no invocation of the frame raises. -/
theorem writerContractMakesEveryFrameComplete : Obligations.WriterContractMakesEveryFrameComplete := by
  intro s w h hb hw hh hcontract
  have hend := frame_ends s w h
  obtain ⟨hout, -⟩ := hend.completed fun x y _ =>
    ⟨_, pixelColor_of_reads (writerContract_reads (s := startBatch w h s) hcontract x y)⟩
  exact ⟨_, exec_frame_of_legal hb hw hh, hend.batch, hout⟩

/-! ### Any order of the invocations -/

theorem gridPixels_length (w h : Nat) : (gridPixels w h).length = w * h := by
  simp [gridPixels, List.length_flatMap, Nat.mul_comm]

/-- Between batches with nothing waiting the block stays as it is for any number of steps. -/
theorem core_run_idle {s : State} (hb : s.batch = none) (hi : s.inbox = []) (n : Nat) :
    Sys2Proof.core.run n s = .next s := by
  induction n with
  | zero => rfl
  | succ n ih => rw [core_run_succ (step_of_idle hb hi), ih]

theorem sameSnapshot_issue (p : Nat × Nat) (b : Batch) (s : State) : SameSnapshot s (issue p b s) :=
  ⟨rfl, rfl, rfl, rfl⟩

theorem sameSnapshot_afterInvocation (p : Nat × Nat) (b : Batch) (c : Color) (s : State) :
    SameSnapshot s (afterInvocation p b c s) := ⟨rfl, rfl, rfl, rfl⟩

/-- From a batch in flight with nothing waiting, as many steps as invocations are pending end the batch,
whichever runs first. -/
theorem core_run_ends {n : Nat} {u : State} {b : Batch} (hb : u.batch = some b) (hi : u.inbox = [])
    (hne : b.pending ≠ []) (hn : b.pending.length = n)
    (hgrid : ∀ p ∈ b.pending, u.onGrid p.1 p.2 = true) (hpaint : Painted u) :
    ∃ t, Sys2Proof.core.run n u = .next t ∧ BatchEnd u t := by
  induction n generalizing u b with
  | zero => exact absurd (List.length_eq_zero_iff.1 hn) hne
  | succ n ih =>
    have hstep : step u = invoke b u := step_of_batch hb (by simp [hi])
    obtain ⟨p, hp, ⟨e, he, hinvoke⟩ | ⟨c, hc, ⟨hlast, hinvoke⟩ | ⟨hmore, hinvoke⟩⟩⟩ :=
      invoke_answers u hne <;> rw [core_run_succ (hstep.trans hinvoke)]
    · have hqueue : (takeException e (issue p b u)).inbox = [] := (takeException_inbox _ _).trans hi
      refine ⟨_, core_run_idle (takeException_batch _ _) hqueue n, takeException_batch _ _,
        (sameSnapshot_issue p b u).trans (sameSnapshot_takeException e _), .inl ?_⟩
      exact ⟨takeException_outcome_of_batch e (issue_batch p b u), p.1, p.2, e, hgrid p hp, he⟩
    · refine ⟨_, core_run_idle (s := completeBatch (afterInvocation p b c u)) rfl hi n, rfl,
        ⟨rfl, rfl, rfl, rfl⟩, .inr ⟨rfl, ?_⟩⟩
      exact showsFrame_completeBatch hpaint hb (hgrid p hp) hc hlast
    · have hlength : (b.pending.erase p).length = n := by
        rw [List.length_erase_of_mem hp, hn, Nat.add_sub_cancel]
      obtain ⟨t, hrun, hend⟩ := ih (afterInvocation_batch p b c u) hi hmore hlength
        (fun q hq => hgrid q (List.mem_of_mem_erase hq))
        (painted_afterInvocation hpaint hb (hgrid p hp) hc)
      exact ⟨t, hrun, hend.of_sameSnapshot (sameSnapshot_afterInvocation p b c u)⟩

/-- Settles O55: the steps from the launch, in whatever order, and the frame end the same batch. -/
theorem everyOrderOfABatchGivesTheFrame : Obligations.EveryOrderOfABatchGivesTheFrame := by
  intro s l f w h hi hlaunch hframe
  obtain ⟨-, hw, hh, rfl⟩ := exec_launch_next hlaunch
  obtain rfl := exec_frame_next hframe
  have hne : gridPixels w h ≠ [] := by
    rw [← List.length_pos_iff, gridPixels_length]
    exact Nat.mul_pos hw hh
  have hpaint : Painted (startBatch w h s) := by
    rintro _ ⟨⟩ x y hxy hnot
    exact absurd (mem_gridPixels.2 (onGrid_iff.1 hxy : x < w ∧ y < h)) hnot
  obtain ⟨t, hrun, hend⟩ := core_run_ends (startBatch_batch w h s) hi hne (gridPixels_length w h)
    (fun p hp => onGrid_iff.2 (mem_gridPixels.1 hp)) hpaint
  obtain ⟨hout, himage⟩ := hend.unique (frame_ends s w h)
  refine ⟨t, hrun, hend.batch, hout, hend.snapshot.mem, fun hcompleted => himage ?_⟩
  rw [hout, hcompleted]

end Sys2Proof.Machine
end

section
/-! PROOFS. The policy `clamp` (R74, decision D3): with a legal sentinel no read raises, so no operation
does, and every frame completes. -/

namespace Sys2Proof.Machine

/-! ### Reads -/

theorem readDisplayRegisters_clamp {P : Params} {m : Memory} {k : Nat} (hP : P.oobPolicy = .clamp k)
    (hk : k < m.size) : ∃ r, readDisplayRegisters P m = .ok r := by
  simp only [readDisplayRegisters, peek8_clampedByte hP hk, peek24_clampedByte hP hk]
  exact ⟨_, rfl⟩

theorem dispatchColor_clamp {P : Params} {m : Memory} {k : Nat} (hP : P.oobPolicy = .clamp k)
    (hk : k < m.size) (origin : Int × Int) (mode : Byte) (px py : Nat) (regs : RegisterBlock) :
    ∃ c, dispatchColor P m origin mode px py regs = .ok c := by
  rw [dispatchColor_eq]
  exact color_clamp hP hk origin px py regs _

theorem pixelColor_clamp {s : State} {k : Nat} (hP : s.params.oobPolicy = .clamp k)
    (hk : k < s.mem.size) (px py : Nat) : ∃ c, pixelColor s px py = .ok c := by
  obtain ⟨⟨mode, regs⟩, hparse⟩ := readDisplayRegisters_clamp hP hk
  rw [pixelColor_of_parse hparse]
  exact dispatchColor_clamp hP hk s.lgOrigin mode px py regs

theorem withRegisters_clamp {s : State} {k : Nat} (hP : s.params.oobPolicy = .clamp k)
    (hk : k < s.mem.size) {f : RegisterBlock → Access Color} (hf : ∀ regs, ∃ c, f regs = .ok c) :
    ∃ c, withRegisters s f = .ok c := by
  obtain ⟨⟨mode, regs⟩, hparse⟩ := readDisplayRegisters_clamp hP hk
  obtain ⟨c, hc⟩ := hf regs
  exact ⟨c, (bind_ok hparse).trans hc⟩

/-! ### Operations -/

/-- The operation ends with a value and nothing else. -/
def DeliversValue (o : Host.Outcome State Fault Refusal) (s : State) : Prop :=
  ∃ v, v ≠ Result.none ∧ o = .next (s.withResult v)

theorem deliversValue_of_eq {o : Host.Outcome State Fault Refusal} {s : State} {v : Result}
    (h : o = .next (s.withResult v)) (hv : v ≠ .none) : DeliversValue o s := ⟨v, hv, h⟩

theorem deliversValue_map {α : Type} {r : Access α} {f : α → Result} {s : State}
    (hr : ∃ x, r = .ok x) (hf : ∀ x, f x ≠ .none) : DeliversValue (deliver (r.map f) s) s := by
  obtain ⟨x, rfl⟩ := hr
  exact ⟨f x, hf x, rfl⟩

/-- The instructions an encoding selects are those the mode bytes decode to (R51). -/
theorem exists_decodeMode_of_encoded {i : Instr} (h : i.encoded = true) : ∃ b, i = decodeMode b := by
  have hdecode := decode_encode h
  match hbytes : encode i with
  | [] =>
    rw [hbytes] at hdecode
    cases hdecode
  | [b] => exact ⟨b, eq_decodeMode_of_encode hbytes⟩
  | _ :: _ :: _ =>
    rw [hbytes] at hdecode
    cases hdecode

/-- Under `clamp` with a legal sentinel the instruction of every mode byte delivers a colour. -/
theorem exec_decodeMode_clamp {s : State} {k : Nat} (hP : s.params.oobPolicy = .clamp k)
    (hk : k < s.mem.size) (mode : Byte) : DeliversValue (exec (decodeMode mode) s) s := by
  rw [exec_decodeMode]
  split
  · exact deliversValue_map (withRegisters_clamp hP hk fun regs =>
      dispatchColor_clamp hP hk s.lgOrigin mode s.px s.py regs) nofun
  · exact deliversValue_of_eq rfl nofun

/-- Under `clamp` with a legal sentinel every operation that delivers a value does so. -/
theorem exec_clamp {s : State} {k : Nat} {i : Instr} (hP : s.params.oobPolicy = .clamp k)
    (hk : k < s.mem.size) (hpixel : ∀ x y, i ≠ .pixel x y) (hframe : ∀ w h, i ≠ .frame w h)
    (hlaunch : ∀ w h, i ≠ .launch w h) (habandon : i ≠ .abandon) : DeliversValue (exec i s) s := by
  cases hencoded : i.encoded with
  | true =>
    obtain ⟨mode, rfl⟩ := exists_decodeMode_of_encoded hencoded
    exact exec_decodeMode_clamp hP hk mode
  | false =>
    cases i with
    | peek8 addr => exact deliversValue_map ⟨_, peek8_clampedByte hP hk addr⟩ nofun
    | peek24 addr => exact deliversValue_map ⟨_, peek24_clampedByte hP hk addr⟩ nofun
    | readDisplayRegisters => exact deliversValue_map (readDisplayRegisters_clamp hP hk) nofun
    | toByteAddress x y regs => exact deliversValue_of_eq (exec_toByteAddress x y regs s) nofun
    | toColor b => exact deliversValue_of_eq (exec_toColor b s) nofun
    | to24Color w => exact deliversValue_of_eq (exec_to24Color w s) nofun
    | paletteLookup index regs => exact deliversValue_map (paletteLookup_clamp hP hk index regs) nofun
    | textPixelSet g col => exact deliversValue_of_eq (exec_textPixelSet g col s) nofun
    | pixel px py => exact absurd rfl (hpixel px py)
    | dispatch mode px py regs =>
      exact deliversValue_map (dispatchColor_clamp hP hk s.lgOrigin mode px py regs) nofun
    | cellColor b model regs => exact deliversValue_map (cellColor_clamp hP hk b model regs) nofun
    | textMode px py regs res model =>
      exact deliversValue_map (textMode_clamp hP hk px py regs res model) nofun
    | frame w h => exact absurd rfl (hframe w h)
    | launch w h => exact absurd rfl (hlaunch w h)
    | abandon => exact absurd rfl habandon
    | _ => cases hencoded

/-- Under `clamp` with a legal sentinel `pixel` writes its colour. -/
theorem runPixel_clamp {s : State} {k : Nat} (hP : s.params.oobPolicy = .clamp k)
    (hk : k < s.mem.size) (px py : Nat) :
    ∃ c, runPixel px py s = ({ s with px := px, py := py }.withResult (.color c)).setPixel px py c := by
  obtain ⟨c, hc⟩ := pixelColor_clamp hP hk px py
  exact ⟨c, by rw [runPixel_eq, hc]⟩

/-- Under `clamp` with a legal sentinel a frame leaves no exception on the port. -/
theorem runFrame_clamp_oob {s : State} {k w h : Nat} (hP : s.params.oobPolicy = .clamp k)
    (hk : k < s.mem.size) : (runFrame (gridPixels w h) (startBatch w h s)).oob = none := by
  obtain ⟨p, -, a, ha, -⟩ | ⟨-, ⟨-, hrun⟩ | ⟨p, -, hrun⟩⟩ :=
    runFrame_cases (gridPixels w h) (startBatch w h s)
  · obtain ⟨c, hc⟩ := pixelColor_clamp (s := startBatch w h s) hP hk p.1 p.2
    rw [hc] at ha
    cases ha
  · rw [hrun]
    rfl
  · rw [hrun]
    rfl

/-- Under `clamp` with a legal sentinel only an abandonment can leave an exception on the port. -/
theorem exec_clamp_oob {s t : State} {k : Nat} {i : Instr} (hP : s.params.oobPolicy = .clamp k)
    (hk : k < s.mem.size) (habandon : i ≠ .abandon) (hexec : exec i s = .next t) : t.oob = none := by
  cases i with
  | abandon => exact absurd rfl habandon
  | launch w h =>
    obtain ⟨-, -, -, rfl⟩ := exec_launch_next hexec
    rfl
  | frame w h =>
    obtain rfl := exec_frame_next hexec
    exact runFrame_clamp_oob hP hk
  | pixel x y =>
    obtain rfl := exec_pixel_next hexec
    obtain ⟨c, hc⟩ := runPixel_clamp hP hk x y
    rw [hc]
    rfl
  | _ =>
    obtain ⟨v, -, hvalue⟩ := exec_clamp hP hk (by simp) (by simp) (by simp) habandon
    rw [hvalue] at hexec
    cases hexec
    rfl

/-- Settles O59: an operation that delivers a value has it, `pixel` and the invocations of a frame have
their colour, and a launch clears the port. -/
theorem underClampNothingRaises : Obligations.UnderClampNothingRaises := by
  intro s k hP hk
  refine ⟨fun i t => exec_clamp_oob hP hk, fun i hpixel hframe hlaunch habandon => ?_,
    fun px py hx hy => ?_, fun w h hb hw hh => ?_⟩
  · obtain ⟨v, hv, hexec⟩ := exec_clamp hP hk hpixel hframe hlaunch habandon
    exact ⟨_, hexec, rfl, hv⟩
  · obtain ⟨c, hc⟩ := runPixel_clamp hP hk px py
    have hgrid : s.onGrid px py = true := onGrid_iff.2 ⟨hx, hy⟩
    refine ⟨_, c, (exec_pixel_of_onGrid hgrid).trans (congrArg _ hc), rfl, ?_, rfl⟩
    exact pixelAt_setPixel_self (s := { s with px := px, py := py }.withResult (.color c)) c hgrid
  · obtain ⟨hout, -⟩ := (frame_ends s w h).completed fun x y _ =>
      pixelColor_clamp (s := startBatch w h s) hP hk x y
    exact ⟨_, exec_frame_of_legal hb hw hh, hout⟩

end Sys2Proof.Machine
end
